-- ==== Sys2Proof/Word.lean ====
section
/-! DEFINITION. The word types of the block (spec 00_scope.md R9, R11): bytes, 16-bit words, 12-bit
addresses, and the two index types of the instruction fields. -/

namespace Sys2Proof

/-- An 8-bit unsigned value: a general register, a timer, a byte of memory, the field NN (R21, R50). -/
abbrev Byte := BitVec 8

/-- A 16-bit unsigned value: an instruction word, I, pc, a stack entry (R9, R80). -/
abbrev Word := BitVec 16

/-- The 12-bit field NNN of an instruction word (R81). -/
abbrev Addr12 := BitVec 12

/-- The number of a general register, V0 to VF, as the fields X and Y name it (R84). -/
abbrev Reg := Fin 16

/-- The number of sprite rows, the field N (R83). -/
abbrev Rows := Fin 16

/-- VF, the register that doubles as the flag (R12, R22). -/
abbrev vf : Reg := 15

end Sys2Proof
end

