-- ==== Sys2Proof/Syntax.lean ====
section
/-! DEFINITION. The 34 instructions of spec/opcode_table.json, one constructor a row, in the table's
order (30_encoding.md R85, R86). The operand types are exactly the fields' widths (R81, R83, R84), so
no term of `Instr` holds an operand the encoding does not admit. -/

namespace Sys2Proof

/-- One instruction with its operands. -/
inductive Instr where
  /-- `00E0` CLS: clear the display (R201). -/
  | cls
  /-- `00EE` RET: return (R131). -/
  | ret
  /-- `1nnn` JP nnn (R132). -/
  | jp (nnn : Addr12)
  /-- `2nnn` CALL nnn (R133). -/
  | call (nnn : Addr12)
  /-- `3xkk` SE Vx, kk (R134). -/
  | seImm (x : Reg) (nn : Byte)
  /-- `4xkk` SNE Vx, kk (R135). -/
  | sneImm (x : Reg) (nn : Byte)
  /-- `5xy0` SE Vx, Vy (R136). -/
  | seReg (x y : Reg)
  /-- `6xkk` LD Vx, kk (R151). -/
  | ldImm (x : Reg) (nn : Byte)
  /-- `7xkk` ADD Vx, kk (R152). -/
  | addImm (x : Reg) (nn : Byte)
  /-- `8xy0` LD Vx, Vy (R153). -/
  | ldReg (x y : Reg)
  /-- `8xy1` OR Vx, Vy (R155). -/
  | or (x y : Reg)
  /-- `8xy2` AND Vx, Vy (R156). -/
  | and (x y : Reg)
  /-- `8xy3` XOR Vx, Vy (R157). -/
  | xor (x y : Reg)
  /-- `8xy4` ADD Vx, Vy (R158). -/
  | addReg (x y : Reg)
  /-- `8xy5` SUB Vx, Vy (R159). -/
  | sub (x y : Reg)
  /-- `8xy6` SHR Vx; the field Y is a don't-care (R89, R162). -/
  | shr (x : Reg)
  /-- `8xy7` SUBN Vx, Vy (R160). -/
  | subn (x y : Reg)
  /-- `8xyE` SHL Vx; the field Y is a don't-care (R89, R164). -/
  | shl (x : Reg)
  /-- `9xy0` SNE Vx, Vy (R137). -/
  | sneReg (x y : Reg)
  /-- `Annn` LD I, nnn (R180). -/
  | ldI (nnn : Addr12)
  /-- `Bnnn` JP V0, nnn (R141). -/
  | jpV0 (nnn : Addr12)
  /-- `Cxkk` RND Vx, kk (R220). -/
  | rnd (x : Reg) (nn : Byte)
  /-- `Dxyn` DRW Vx, Vy, n (R202). -/
  | drw (x y : Reg) (n : Rows)
  /-- `Ex9E` SKP Vx (R221). -/
  | skp (x : Reg)
  /-- `ExA1` SKNP Vx (R222). -/
  | sknp (x : Reg)
  /-- `Fx07` LD Vx, DT (R224). -/
  | ldVxDT (x : Reg)
  /-- `Fx0A` LD Vx, K (R227). -/
  | ldVxK (x : Reg)
  /-- `Fx15` LD DT, Vx (R225). -/
  | ldDTVx (x : Reg)
  /-- `Fx18` LD ST, Vx (R226). -/
  | ldSTVx (x : Reg)
  /-- `Fx1E` ADD I, Vx (R181). -/
  | addI (x : Reg)
  /-- `Fx29` LD F, Vx (R184). -/
  | ldF (x : Reg)
  /-- `Fx33` LD B, Vx (R185). -/
  | ldB (x : Reg)
  /-- `Fx55` LD [I], Vx (R186). -/
  | ldMemVx (x : Reg)
  /-- `Fx65` LD Vx, [I] (R187). -/
  | ldVxMem (x : Reg)
deriving DecidableEq, Repr

end Sys2Proof
end

