-- ==== Sys2Proof/WellFormed.lean ====
section
/-! DEFINITION. Which 16-bit words are legal instructions: the rows of spec/opcode_table.json as data
(mask and pattern of each, R86) and the check that some row matches (R87). The types of `Instr` leave
no ill-formed operand (R84: "every value is legal"), so what can be ill formed is a WORD, and this is
the check of it. The decoder (Decode.lean) is written separately, from rule R85's case tree. -/

namespace Sys2Proof

/-- One row of the opcode table: a word belongs to it when its bits under `mask` are `pattern`. -/
structure OpcodeRow where
  mnemonic : String
  pattern  : Word
  mask     : Word
deriving DecidableEq, Repr

/-- The row of an instruction, as spec/opcode_table.json gives it. -/
def Instr.row : Instr → OpcodeRow
  | .cls => { mnemonic := "CLS", pattern := 0x00E0, mask := 0xFFFF }
  | .ret => { mnemonic := "RET", pattern := 0x00EE, mask := 0xFFFF }
  | .jp _ => { mnemonic := "JP", pattern := 0x1000, mask := 0xF000 }
  | .call _ => { mnemonic := "CALL", pattern := 0x2000, mask := 0xF000 }
  | .seImm _ _ => { mnemonic := "SE_imm", pattern := 0x3000, mask := 0xF000 }
  | .sneImm _ _ => { mnemonic := "SNE_imm", pattern := 0x4000, mask := 0xF000 }
  | .seReg _ _ => { mnemonic := "SE_reg", pattern := 0x5000, mask := 0xF00F }
  | .ldImm _ _ => { mnemonic := "LD_imm", pattern := 0x6000, mask := 0xF000 }
  | .addImm _ _ => { mnemonic := "ADD_imm", pattern := 0x7000, mask := 0xF000 }
  | .ldReg _ _ => { mnemonic := "LD_reg", pattern := 0x8000, mask := 0xF00F }
  | .or _ _ => { mnemonic := "OR", pattern := 0x8001, mask := 0xF00F }
  | .and _ _ => { mnemonic := "AND", pattern := 0x8002, mask := 0xF00F }
  | .xor _ _ => { mnemonic := "XOR", pattern := 0x8003, mask := 0xF00F }
  | .addReg _ _ => { mnemonic := "ADD_reg", pattern := 0x8004, mask := 0xF00F }
  | .sub _ _ => { mnemonic := "SUB", pattern := 0x8005, mask := 0xF00F }
  | .shr _ => { mnemonic := "SHR", pattern := 0x8006, mask := 0xF00F }
  | .subn _ _ => { mnemonic := "SUBN", pattern := 0x8007, mask := 0xF00F }
  | .shl _ => { mnemonic := "SHL", pattern := 0x800E, mask := 0xF00F }
  | .sneReg _ _ => { mnemonic := "SNE_reg", pattern := 0x9000, mask := 0xF00F }
  | .ldI _ => { mnemonic := "LD_I", pattern := 0xA000, mask := 0xF000 }
  | .jpV0 _ => { mnemonic := "JP_V0", pattern := 0xB000, mask := 0xF000 }
  | .rnd _ _ => { mnemonic := "RND", pattern := 0xC000, mask := 0xF000 }
  | .drw _ _ _ => { mnemonic := "DRW", pattern := 0xD000, mask := 0xF000 }
  | .skp _ => { mnemonic := "SKP", pattern := 0xE09E, mask := 0xF0FF }
  | .sknp _ => { mnemonic := "SKNP", pattern := 0xE0A1, mask := 0xF0FF }
  | .ldVxDT _ => { mnemonic := "LD_Vx_DT", pattern := 0xF007, mask := 0xF0FF }
  | .ldVxK _ => { mnemonic := "LD_Vx_K", pattern := 0xF00A, mask := 0xF0FF }
  | .ldDTVx _ => { mnemonic := "LD_DT_Vx", pattern := 0xF015, mask := 0xF0FF }
  | .ldSTVx _ => { mnemonic := "LD_ST_Vx", pattern := 0xF018, mask := 0xF0FF }
  | .addI _ => { mnemonic := "ADD_I", pattern := 0xF01E, mask := 0xF0FF }
  | .ldF _ => { mnemonic := "LD_F", pattern := 0xF029, mask := 0xF0FF }
  | .ldB _ => { mnemonic := "LD_B", pattern := 0xF033, mask := 0xF0FF }
  | .ldMemVx _ => { mnemonic := "LD_mem_Vx", pattern := 0xF055, mask := 0xF0FF }
  | .ldVxMem _ => { mnemonic := "LD_Vx_mem", pattern := 0xF065, mask := 0xF0FF }

/-- One instruction of each row, in the table's order (the operands play no part). -/
def opcodeRepresentatives : List Instr :=
  [.cls, .ret, .jp 0, .call 0, .seImm 0 0, .sneImm 0 0, .seReg 0 0, .ldImm 0 0, .addImm 0 0, .ldReg 0 0, .or 0 0, .and 0 0] ++
  [.xor 0 0, .addReg 0 0, .sub 0 0, .shr 0, .subn 0 0, .shl 0, .sneReg 0 0, .ldI 0, .jpV0 0, .rnd 0 0, .drw 0 0 0, .skp 0] ++
  [.sknp 0, .ldVxDT 0, .ldVxK 0, .ldDTVx 0, .ldSTVx 0, .addI 0, .ldF 0, .ldB 0, .ldMemVx 0, .ldVxMem 0]

/-- The whole opcode table (R86). -/
def opcodeRows : List OpcodeRow := opcodeRepresentatives.map Instr.row

/-- The word belongs to the row. -/
def OpcodeRow.accepts (r : OpcodeRow) (w : Word) : Bool := w &&& r.mask == r.pattern

/-- The word is a legal instruction: some row of the table accepts it (R87). -/
def wordWellFormed (w : Word) : Bool := opcodeRows.any (fun r => r.accepts w)

/-- No word belongs to both rows: their patterns differ in a bit that both masks fix. -/
def OpcodeRow.disjoint (r q : OpcodeRow) : Bool :=
  (r.pattern ^^^ q.pattern) &&& r.mask &&& q.mask != 0

end Sys2Proof
end

