-- ==== Sys2Proof/Decode.lean ====
section
/-! DEFINITION. The decoder (30_encoding.md R81, R85), total on every word and on every list of bytes
and refusing by name, and after it the encoder, written from the formats of R82. -/

namespace Sys2Proof

/-- Why a decoding fails. -/
inductive DecodeError where
  /-- The word matches no instruction of R85; it carries the raw word (R87). -/
  | unknownOpcode (w : Word)
  /-- Fewer than the two bytes that every instruction has (R80). -/
  | truncated
deriving DecidableEq, Repr

/-- The family F, w[15:12] (R81). -/
def fieldF (w : Word) : BitVec 4 := w.extractLsb' 12 4

/-- The register field X, w[11:8] (R81). -/
def fieldX (w : Word) : Reg := (w.extractLsb' 8 4).toFin

/-- The register field Y, w[7:4] (R81). -/
def fieldY (w : Word) : Reg := (w.extractLsb' 4 4).toFin

/-- The field N, w[3:0] (R81), as the sub-operation of families 5, 8 and 9. -/
def fieldN (w : Word) : BitVec 4 := w.extractLsb' 0 4

/-- The field N as a number of sprite rows (R83). -/
def fieldRows (w : Word) : Rows := (fieldN w).toFin

/-- The field NN, w[7:0] (R81). -/
def fieldNN (w : Word) : Byte := w.extractLsb' 0 8

/-- The field NNN, w[11:0] (R81). -/
def fieldNNN (w : Word) : Addr12 := w.extractLsb' 0 12

/-- Family 0: `00E0` and `00EE` only (R85, R88). -/
def decodeFamily0 (w : Word) : Except DecodeError Instr :=
  if w = 0x00E0 then .ok .cls
  else if w = 0x00EE then .ok .ret
  else .error (.unknownOpcode w)

/-- Family 8: the register-to-register operations, chosen by N (R85). -/
def decodeFamily8 (w : Word) : Except DecodeError Instr :=
  match (fieldN w).toNat with
  | 0x0 => .ok (.ldReg (fieldX w) (fieldY w))
  | 0x1 => .ok (.or (fieldX w) (fieldY w))
  | 0x2 => .ok (.and (fieldX w) (fieldY w))
  | 0x3 => .ok (.xor (fieldX w) (fieldY w))
  | 0x4 => .ok (.addReg (fieldX w) (fieldY w))
  | 0x5 => .ok (.sub (fieldX w) (fieldY w))
  | 0x6 => .ok (.shr (fieldX w))
  | 0x7 => .ok (.subn (fieldX w) (fieldY w))
  | 0xE => .ok (.shl (fieldX w))
  | _   => .error (.unknownOpcode w)

/-- Family E: the key skips, chosen by NN (R85). -/
def decodeFamilyE (w : Word) : Except DecodeError Instr :=
  match (fieldNN w).toNat with
  | 0x9E => .ok (.skp (fieldX w))
  | 0xA1 => .ok (.sknp (fieldX w))
  | _    => .error (.unknownOpcode w)

/-- Family F, chosen by NN (R85). -/
def decodeFamilyF (w : Word) : Except DecodeError Instr :=
  match (fieldNN w).toNat with
  | 0x07 => .ok (.ldVxDT (fieldX w))
  | 0x0A => .ok (.ldVxK (fieldX w))
  | 0x15 => .ok (.ldDTVx (fieldX w))
  | 0x18 => .ok (.ldSTVx (fieldX w))
  | 0x1E => .ok (.addI (fieldX w))
  | 0x29 => .ok (.ldF (fieldX w))
  | 0x33 => .ok (.ldB (fieldX w))
  | 0x55 => .ok (.ldMemVx (fieldX w))
  | 0x65 => .ok (.ldVxMem (fieldX w))
  | _    => .error (.unknownOpcode w)

/-- The decoder of R85: one of the 34 instructions, or `unknownOpcode` with the raw word. -/
def decode (w : Word) : Except DecodeError Instr :=
  match (fieldF w).toNat with
  | 0x0 => decodeFamily0 w
  | 0x1 => .ok (.jp (fieldNNN w))
  | 0x2 => .ok (.call (fieldNNN w))
  | 0x3 => .ok (.seImm (fieldX w) (fieldNN w))
  | 0x4 => .ok (.sneImm (fieldX w) (fieldNN w))
  | 0x5 => if fieldN w = 0 then .ok (.seReg (fieldX w) (fieldY w)) else .error (.unknownOpcode w)
  | 0x6 => .ok (.ldImm (fieldX w) (fieldNN w))
  | 0x7 => .ok (.addImm (fieldX w) (fieldNN w))
  | 0x8 => decodeFamily8 w
  | 0x9 => if fieldN w = 0 then .ok (.sneReg (fieldX w) (fieldY w)) else .error (.unknownOpcode w)
  | 0xA => .ok (.ldI (fieldNNN w))
  | 0xB => .ok (.jpV0 (fieldNNN w))
  | 0xC => .ok (.rnd (fieldX w) (fieldNN w))
  | 0xD => .ok (.drw (fieldX w) (fieldY w) (fieldRows w))
  | 0xE => decodeFamilyE w
  | _   => decodeFamilyF w

/-- The word of two bytes, the first fetched in bits 15..8 (R54, big-endian). -/
def wordOfBytes (hi lo : Byte) : Word := hi ++ lo

/-- The byte of a word that is stored at the lower address (R54). -/
def wordHigh (w : Word) : Byte := w.extractLsb' 8 8

/-- The byte of a word that is stored at the higher address (R54). -/
def wordLow (w : Word) : Byte := w.extractLsb' 0 8

/-- The decoder on bytes: the instruction at their head and the bytes after it (R80, R54). -/
def decodeBytes : List Byte → Except DecodeError (Instr × List Byte)
  | hi :: lo :: rest =>
    match decode (wordOfBytes hi lo) with
    | .ok i => .ok (i, rest)
    | .error e => .error e
  | _ => .error .truncated

/-- The 4 bits of a register number in an instruction word (R81). -/
def regBits (x : Reg) : BitVec 4 := BitVec.ofFin x

/-- Format A: `Fnnn` (R82). -/
def encodeA (f : BitVec 4) (nnn : Addr12) : Word := f ++ nnn

/-- Formats XK and XS: `Fxkk` (R82). -/
def encodeXK (f : BitVec 4) (x : Reg) (kk : Byte) : Word := f ++ regBits x ++ kk

/-- Formats XY and XYN: `Fxyn` (R82). -/
def encodeXY (f : BitVec 4) (x y : Reg) (n : BitVec 4) : Word := f ++ regBits x ++ regBits y ++ n

/-- The word of an instruction (R82, R91). SHR and SHL take 0 in their don't-care field Y, as R91's
plain forms assemble. -/
def encode : Instr → Word
  | .cls => 0x00E0
  | .ret => 0x00EE
  | .jp nnn => encodeA 0x1 nnn
  | .call nnn => encodeA 0x2 nnn
  | .seImm x nn => encodeXK 0x3 x nn
  | .sneImm x nn => encodeXK 0x4 x nn
  | .seReg x y => encodeXY 0x5 x y 0x0
  | .ldImm x nn => encodeXK 0x6 x nn
  | .addImm x nn => encodeXK 0x7 x nn
  | .ldReg x y => encodeXY 0x8 x y 0x0
  | .or x y => encodeXY 0x8 x y 0x1
  | .and x y => encodeXY 0x8 x y 0x2
  | .xor x y => encodeXY 0x8 x y 0x3
  | .addReg x y => encodeXY 0x8 x y 0x4
  | .sub x y => encodeXY 0x8 x y 0x5
  | .shr x => encodeXY 0x8 x 0 0x6
  | .subn x y => encodeXY 0x8 x y 0x7
  | .shl x => encodeXY 0x8 x 0 0xE
  | .sneReg x y => encodeXY 0x9 x y 0x0
  | .ldI nnn => encodeA 0xA nnn
  | .jpV0 nnn => encodeA 0xB nnn
  | .rnd x nn => encodeXK 0xC x nn
  | .drw x y n => encodeXY 0xD x y (BitVec.ofFin n)
  | .skp x => encodeXK 0xE x 0x9E
  | .sknp x => encodeXK 0xE x 0xA1
  | .ldVxDT x => encodeXK 0xF x 0x07
  | .ldVxK x => encodeXK 0xF x 0x0A
  | .ldDTVx x => encodeXK 0xF x 0x15
  | .ldSTVx x => encodeXK 0xF x 0x18
  | .addI x => encodeXK 0xF x 0x1E
  | .ldF x => encodeXK 0xF x 0x29
  | .ldB x => encodeXK 0xF x 0x33
  | .ldMemVx x => encodeXK 0xF x 0x55
  | .ldVxMem x => encodeXK 0xF x 0x65

/-- The two bytes of an instruction as memory stores them, the first at the lower address (R54). -/
def encodeBytes (i : Instr) : List Byte := [wordHigh (encode i), wordLow (encode i)]

/-- The instruction this decoder reads from a word numbered as spec/opcode_table.json numbers its
bits: the word's two bytes, high byte first, given to `decodeBytes`. -/
def decodeTableWord (nbits w : Nat) : Option Instr :=
  match decodeBytes [wordHigh (BitVec.ofNat 16 (w % 2 ^ nbits)), wordLow (BitVec.ofNat 16 (w % 2 ^ nbits))] with
  | .ok (i, _) => some i
  | .error _ => none

end Sys2Proof
end

