-- ==== Sys2Proof/Config.lean ====
section
/-! DEFINITION. What an implementation fixes and what the spec leaves free: FONT_BASE (R64, OPEN),
FONT_GLYPHS (R63) and the random bytes (R37). -/

namespace Sys2Proof

/-- FONT_BASE, the address of glyph 0 (R64, decision D11: OPEN). The type is the spec's whole
constraint, FONT_BASE + 80 <= 512; the value has no body, so nothing in Lean can lean on one.
Assumption 1. -/
opaque Config.fontBaseIndex : Fin 433

/-- FONT_BASE as an address. -/
def Config.fontBase : Nat := Config.fontBaseIndex.val

/-- FONT_GLYPHS, the 80 bytes of the conventional font, glyph by glyph, row 0 first
(20_memory.md R63, decision D12). Assumption 2. -/
def Config.fontGlyphs : List Byte :=
  [0xF0, 0x90, 0x90, 0x90, 0xF0,   -- 0
   0x20, 0x60, 0x20, 0x20, 0x70,   -- 1
   0xF0, 0x10, 0xF0, 0x80, 0xF0,   -- 2
   0xF0, 0x10, 0xF0, 0x10, 0xF0,   -- 3
   0x90, 0x90, 0xF0, 0x10, 0x10,   -- 4
   0xF0, 0x80, 0xF0, 0x10, 0xF0,   -- 5
   0xF0, 0x80, 0xF0, 0x90, 0xF0,   -- 6
   0xF0, 0x10, 0x20, 0x40, 0x40] ++ -- 7
  [0xF0, 0x90, 0xF0, 0x90, 0xF0,   -- 8
   0xF0, 0x90, 0xF0, 0x10, 0xF0,   -- 9
   0xF0, 0x90, 0xF0, 0x90, 0x90,   -- A
   0xE0, 0x90, 0xE0, 0x90, 0xE0,   -- B
   0xF0, 0x80, 0x80, 0x80, 0xF0,   -- C
   0xE0, 0x90, 0x90, 0x90, 0xE0,   -- D
   0xF0, 0x80, 0xF0, 0x80, 0xF0,   -- E
   0xF0, 0x80, 0xF0, 0x80, 0x80]   -- F

/-- The random byte `rnd` that the n-th executed CXNN consumes (R37, R220, decision D16): a free
input with no law and no body, so a statement about it holds for every sequence of bytes.
Assumption 3. -/
opaque Config.randomByte : Nat → Byte

end Sys2Proof
end

