-- ==== Sys2Proof/Machine/State.lean ====
section
/-! DEFINITION. The state of the block as plain data (10_state.md R20, R41), the errors a Step can
return (60_exceptions.md R240), the refusals, and the state right after construction (R40, R280). -/

namespace Sys2Proof.Machine

/-- Memory: the listed (address, byte) pairs; an unlisted address reads as `Memory.initial` (Ops.lean),
the contents after construction. The canonical form is `Memory.wf` (Ops.lean). -/
abbrev Memory := List Host.Cell

/-- The display buffer, `disp[x][y]`: 64 columns of 32 one-bit pixels, true a pixel that is 1 (R32). -/
abbrev Display := Vector (Vector Bool 32) 64

/-- The block's whole state: R20's record, field by field, and one field of the model's own. -/
structure State where
  /-- The general registers V0 to VF (R21). -/
  v     : Vector Byte 16
  /-- The index register I (R24). -/
  i     : Word
  /-- The program counter (R25). -/
  pc    : Word
  /-- The 16 return addresses (R28). -/
  stack : Vector Word 16
  /-- The stack pointer SP, the number of entries in use, 0 to 16 (R28). -/
  sp    : Fin 17
  /-- The delay timer (R30). -/
  dt    : Byte
  /-- The sound timer (R30). -/
  st    : Byte
  /-- The input latch, true a pressed key (R31). -/
  key   : Vector Bool 16
  /-- The display buffer (R32). -/
  disp  : Display
  /-- The frame-ready flag (R33). -/
  dirty : Bool
  /-- Memory, 4096 bytes (R36, R50). -/
  mem   : Memory
  /-- THE MODEL'S OWN, not the spec's: how many random bytes CXNN has consumed, so that each takes a
  fresh free value of `Config.randomByte` (R37). Assumption 3. -/
  rndPos : Nat
deriving DecidableEq, Repr

/-- The errors a Step can return (R240). Every one leaves the state as it was (R241) and is the spec's
own result of the Step, so each is safe: the machine stops where the spec says it returns an error. -/
inductive Fault where
  /-- `DecodeError::UnknownOpcode(w)`, raised by `step` when the fetched word is no instruction (R118).
  Safe: the spec's own error. -/
  | unknownOpcode (w : Word)
  /-- Raised by CALL with SP = 16 (R133). Safe: the spec's own error. -/
  | stackOverflow
  /-- Raised by RET with SP = 0 (R131). Safe: the spec's own error. -/
  | stackUnderflow
  /-- `BoundsError(addr a)`, raised by the fetch and by DRW, LD B, LD [I] and LD Vx, [I] for an access
  that passes 0xFFF; `a` is the access's first address above 0xFFF (R51). Safe: the spec's own error. -/
  | boundsAddr (a : Nat)
  /-- `BoundsError(key k)`, raised by SKP and SKNP for a key index above 15 (R223). Safe: the spec's
  own error. -/
  | boundsKey (k : Byte)
deriving DecidableEq, Repr

/-- Why the model has no move. -/
inductive Refusal where
  /-- An arm of `exec` without a meaning; no arm answers it. Safe: it claims nothing. -/
  | notModelled (mnemonic : String)
  /-- Raised by the host operation load on a block that is not as constructed (R61, decision D18: a
  model refuses it); no Step raises it. Safe: it claims nothing. -/
  | loadNotAdmitted
deriving DecidableEq, Repr

/-- The error of the load operation, `LoadError::TooLarge` (R60, R240). -/
inductive LoadError where
  | tooLarge
deriving DecidableEq, Repr

/-- The outcome of a Step or of an instruction: the next state (the spec's `Ok`), an error, or no move. -/
abbrev Outcome := Host.Outcome State Fault Refusal

/-- The display with every pixel 0. -/
def blankDisplay : Display := Vector.replicate 64 (Vector.replicate 32 false)

/-- The state right after construction, the block's only reset (R40, R280, R282): every register,
timer and stack entry 0, the stack empty, every key released, every pixel 0, dirty false, pc = 0x200,
and memory with nothing listed (zero but for the font table). -/
def State.reset : State where
  v := Vector.replicate 16 0
  i := 0
  pc := 0x200
  stack := Vector.replicate 16 0
  sp := 0
  dt := 0
  st := 0
  key := Vector.replicate 16 false
  disp := blankDisplay
  dirty := false
  mem := []
  rndPos := 0

end Sys2Proof.Machine
end

