-- ==== Sys2Proof/Machine/Ops.lean ====
section
/-! DEFINITION. The named operations over memory, the registers, the stack and the program counter,
the fetch, the bounds check that every access shares, and the one way a Step returns an error. -/

namespace Sys2Proof.Machine

/-! ## Memory (20_memory.md) -/

/-- The number of bytes of memory: addresses 0 to 0xFFF exist (R50). -/
def memSize : Nat := 4096

/-- The font byte that construction puts at an address of the low region, and 0 beside the font table
(R62, R64). -/
def fontByteAt (a : Nat) : Byte :=
  if Config.fontBase ≤ a then Config.fontGlyphs.getD (a - Config.fontBase) 0 else 0

/-- What an address that memory does not list reads as: the contents after construction, zero but for
the font table (R40), which lies below 512 (R64). -/
def Memory.initial (a : Nat) : Byte := if a < 512 then fontByteAt a else 0

/-- The byte at an address (R52, one byte). -/
def Memory.read : Memory → Nat → Byte
  | [], a => Memory.initial a
  | (k, b) :: m, a => if a = k then b else Memory.read m a

/-- Take an address off the list, so that it reads as unlisted. -/
def Memory.erase (m : Memory) (a : Nat) : Memory := m.filter fun c => c.1 != a

/-- List a byte at an address that is not listed, before the first higher address. -/
def Memory.insert : Memory → Nat → Byte → Memory
  | [], a, b => [(a, b)]
  | (k, c) :: m, a, b => if a < k then (a, b) :: (k, c) :: m else (k, c) :: Memory.insert m a b

/-- Store one byte (R53), keeping the canonical form: the byte an address reads as unlisted is not
listed. -/
def Memory.write (m : Memory) (a : Nat) (b : Byte) : Memory :=
  if b = Memory.initial a then m.erase a else (m.erase a).insert a b

/-- Store a list of bytes at consecutive addresses, the lowest first: a sequence of one-byte writes
(R53). -/
def Memory.writeBytes : Memory → Nat → List Byte → Memory
  | m, _, [] => m
  | m, a, b :: bs => Memory.writeBytes (Memory.write m a b) (a + 1) bs

/-- The canonical form above a bound: addresses rising from the bound, all of them addresses that
exist, and no cell equal to what its address reads as unlisted. -/
def Memory.wfFrom : Nat → Memory → Bool
  | _, [] => true
  | lo, (k, b) :: m =>
    decide (lo ≤ k) && decide (k < memSize) && decide (b ≠ Memory.initial k) && Memory.wfFrom (k + 1) m

/-- The canonical form of memory. -/
def Memory.wf (m : Memory) : Bool := Memory.wfFrom 0 m

/-! ## Registers and the other state -/

/-- Replace the general registers. -/
def State.setRegs (s : State) (v : Vector Byte 16) : State := { s with v := v }

/-- `V[x] <- b` (R12). -/
def State.setV (s : State) (x : Reg) (b : Byte) : State := s.setRegs (s.v.set x b)

/-- `I <- w` (R24). -/
def State.setI (s : State) (w : Word) : State := { s with i := w }

/-- `pc <- w` (R25). -/
def State.setPc (s : State) (w : Word) : State := { s with pc := w }

/-- `pc <- (pc + n) mod 2^16` (R26). -/
def State.advance (s : State) (n : Word) : State := s.setPc (s.pc + n)

/-- Replace the call stack and its pointer. -/
def State.setStack (s : State) (st : Vector Word 16) (sp : Fin 17) : State :=
  { s with stack := st, sp := sp }

/-- `DT <- b` (R30). -/
def State.setDT (s : State) (b : Byte) : State := { s with dt := b }

/-- `ST <- b` (R30). -/
def State.setST (s : State) (b : Byte) : State := { s with st := b }

/-- Replace the input latch (R31; only the host's key set does). -/
def State.setKeys (s : State) (k : Vector Bool 16) : State := { s with key := k }

/-- Replace the display buffer (R32). -/
def State.setDisp (s : State) (d : Display) : State := { s with disp := d }

/-- `dirty <- b` (R33). -/
def State.setDirty (s : State) (b : Bool) : State := { s with dirty := b }

/-- Replace memory. -/
def State.setMem (s : State) (m : Memory) : State := { s with mem := m }

/-- Move to the n-th random byte (the model's own field, assumption 3). -/
def State.setRndPos (s : State) (n : Nat) : State := { s with rndPos := n }

/-! ## Errors (60_exceptions.md) -/

/-- `raise E(info)`: end the Step with the error as its result (R12, R241, R244). There is no entry, no
saved state and no handler: the state stays the one the Step began in, which the host keeps
(Block.lean). -/
def raise (f : Fault) : Outcome := .fault f

/-- The bounds check of one access to the `len` bytes from `base` on, made before any byte of it moves
(R51, R52): the access goes on if it has no byte or its last address is at most 0xFFF, and else raises
`BoundsError` with its first address above 0xFFF. -/
def withAccess (base len : Nat) (go : Outcome) : Outcome :=
  if len = 0 ∨ base + len ≤ memSize then go else raise (.boundsAddr (max base memSize))

/-- The bounds check of a key index, R223: go on with the key's number, or raise `BoundsError(key k)`
for an index above 15. -/
def withKey (k : Byte) (go : Fin 16 → Outcome) : Outcome :=
  if h : k.toNat < 16 then go ⟨k.toNat, h⟩ else raise (.boundsKey k)

/-! ## The call stack (10_state.md R28) -/

/-- Push a return address, or raise StackOverflow when 16 entries are in use: `stack[SP] <- w`, then
`SP <- SP + 1`. -/
def withPush (s : State) (w : Word) (go : State → Outcome) : Outcome :=
  if h : s.sp.val < 16 then go (s.setStack (s.stack.set s.sp.val w h) ⟨s.sp.val + 1, by omega⟩)
  else raise .stackOverflow

/-- Pop a return address, or raise StackUnderflow when none is in use: `SP <- SP - 1`, then read
`stack[SP]`, which keeps its value. -/
def withPop (s : State) (go : Word → State → Outcome) : Outcome :=
  if h : 0 < s.sp.val then
    go (s.stack[s.sp.val - 1]'(by omega)) (s.setStack s.stack ⟨s.sp.val - 1, by omega⟩)
  else raise .stackUnderflow

/-! ## Fetch and decode (40_step_cycle.md) -/

/-- The word at an address, the byte at the lower address in bits 15..8 (R52, R54). -/
def Memory.readWord (m : Memory) (a : Nat) : Word := wordOfBytes (m.read a) (m.read (a + 1))

/-- Fetch the word at pc, decode it and go on with the instruction (R110 to R112, R118): the fetch's
`BoundsError` first, then `UnknownOpcode` (R243). An odd pc is fetched as it is (R27, R55). -/
def withFetched (s : State) (go : Instr → Outcome) : Outcome :=
  withAccess s.pc.toNat 2
    (match decode (s.mem.readWord s.pc.toNat) with
     | .ok i => go i
     | .error _ => raise (.unknownOpcode (s.mem.readWord s.pc.toNat)))

/-- Store a word at pc, where the next Step fetches it; a pc from which nothing can be fetched (above
0xFFE) is first set to the entry point 0x200. -/
def storeAtPc (s : State) (w : Word) : State :=
  let s' := if s.pc.toNat + 2 ≤ memSize then s else s.setPc 0x200
  s'.setMem (s'.mem.writeBytes s'.pc.toNat [wordHigh w, wordLow w])

end Sys2Proof.Machine
end

