-- ==== Sys2Proof/Machine/Operands.lean ====
section
/-! DEFINITION. The operand forms of the instructions (30_encoding.md R83, R84; 43_index_memory.md
R183): registers, zero-extended immediates, memory through I, and the block of registers V0..VX. -/

namespace Sys2Proof.Machine

/-- The register operand VX or VY: `V[x]` (R12, R84). -/
def State.reg (s : State) (x : Reg) : Byte := s.v[x]

/-- The address operand NNN, `zext_16(NNN)` (R83). -/
def immAddr (nnn : Addr12) : Word := nnn.zeroExtend 16

/-- A byte zero-extended to 16 bits (R11). -/
def byteToWord (b : Byte) : Word := b.zeroExtend 16

/-- The effective address of an access through I, on naturals and unmasked; an access adds its offset
k to it (R183). -/
def State.indexAddr (s : State) : Nat := s.i.toNat

/-- The three decimal digits of a byte: hundreds, tens, units (R185). -/
def bcdDigits (b : Byte) : List Byte :=
  [BitVec.ofNat 8 (b.toNat / 100), BitVec.ofNat 8 (b.toNat / 10 % 10), BitVec.ofNat 8 (b.toNat % 10)]

/-- How many registers V0..VX are (R84: X is also a count). -/
def blockLen (x : Reg) : Nat := x.val + 1

/-- The registers V0..VX in order, as the block store moves them (R186). -/
def State.regBlock (s : State) (x : Reg) : List Byte := s.v.toList.take (blockLen x)

/-- Load the first n registers from the n bytes at `a` on, in order; the others stay (R187). -/
def loadRegs (m : Memory) (a : Nat) : Nat → Vector Byte 16 → Vector Byte 16
  | 0, v => v
  | n + 1, v => (loadRegs m a n v).setIfInBounds n (m.read (a + n))

/-- The value the block store and load leave in I: X + 1 (R186, R187, C4). -/
def blockIndex (x : Reg) : Word := BitVec.ofNat 16 (x.val + 1)

/-- The address of the glyph of a digit: FONT_BASE + 5 × VX, with no masking of VX (R184). -/
def glyphAddr (b : Byte) : Word := BitVec.ofNat 16 (Config.fontBase + 5 * b.toNat)

end Sys2Proof.Machine
end

