-- ==== Sys2Proof/Machine/Flags.lean ====
section
/-! DEFINITION. Every outcome that VF reports (10_state.md R34), and the write of VF. The collision flag
of DRW comes out of the drawing itself (Display.lean). -/

namespace Sys2Proof.Machine

/-- A flag as VF holds it: 1 or 0. -/
def flagByte (f : Bool) : Byte := if f then 1 else 0

/-- `V[15] <- (if f then 1 else 0)` (R12, R22). -/
def State.setFlag (s : State) (f : Bool) : State := s.setV vf (flagByte f)

/-- Write a result to VX first and the flag to VF last, so that with X = F the flag stands (R154,
decision D4). -/
def State.setResultFlag (s : State) (x : Reg) (r : Byte) (f : Bool) : State := (s.setV x r).setFlag f

/-- 8XY4: the unsigned sum exceeds 255 (R158). -/
def carryOut (a b : Byte) : Bool := decide (a.toNat + b.toNat > 255)

/-- 8XY5 and 8XY7: no borrow, the subtrahend e is at most the minuend d (R161). -/
def noBorrow (d e : Byte) : Bool := decide (e.toNat ≤ d.toNat)

/-- 8XY6: bit 0 before the shift (R162). -/
def lowBit (a : Byte) : Bool := a.getLsbD 0

/-- 8XYE: bit 7 before the shift (R164). -/
def highBit (a : Byte) : Bool := a.getLsbD 7

/-- FX1E: the sum I + VX exceeds 0xFFF (R181). -/
def indexOverflow (i : Word) (b : Byte) : Bool := decide (i.toNat + b.toNat > 0xFFF)

end Sys2Proof.Machine
end

