-- ==== Sys2Proof/Machine/Alu.lean ====
section
/-! DEFINITION. Register arithmetic and logic (42_alu.md): the loads and adds of a byte and the
register-to-register operations of family 8. Bytes wrap mod 256 (R150); every instruction advances pc
by 2 and raises no error. -/

namespace Sys2Proof.Machine

/-- LD Vx, kk (R151). -/
def execLdImm (x : Reg) (nn : Byte) (s : State) : Outcome := .next ((s.setV x nn).advance 2)

/-- ADD Vx, kk (R152): no flag. -/
def execAddImm (x : Reg) (nn : Byte) (s : State) : Outcome :=
  .next ((s.setV x (s.reg x + nn)).advance 2)

/-- LD Vx, Vy (R153). -/
def execLdReg (x y : Reg) (s : State) : Outcome := .next ((s.setV x (s.reg y)).advance 2)

/-- OR Vx, Vy (R155): VF is not reset. -/
def execOr (x y : Reg) (s : State) : Outcome := .next ((s.setV x (s.reg x ||| s.reg y)).advance 2)

/-- AND Vx, Vy (R156): VF is not reset. -/
def execAnd (x y : Reg) (s : State) : Outcome := .next ((s.setV x (s.reg x &&& s.reg y)).advance 2)

/-- XOR Vx, Vy (R157): VF is not reset. -/
def execXor (x y : Reg) (s : State) : Outcome := .next ((s.setV x (s.reg x ^^^ s.reg y)).advance 2)

/-- ADD Vx, Vy (R158): VF = carry. -/
def execAddReg (x y : Reg) (s : State) : Outcome :=
  .next ((s.setResultFlag x (s.reg x + s.reg y) (carryOut (s.reg x) (s.reg y))).advance 2)

/-- SUB Vx, Vy (R159): VX - VY, VF = no borrow. -/
def execSub (x y : Reg) (s : State) : Outcome :=
  .next ((s.setResultFlag x (s.reg x - s.reg y) (noBorrow (s.reg x) (s.reg y))).advance 2)

/-- SUBN Vx, Vy (R160): VY - VX, VF = no borrow. -/
def execSubn (x y : Reg) (s : State) : Outcome :=
  .next ((s.setResultFlag x (s.reg y - s.reg x) (noBorrow (s.reg y) (s.reg x))).advance 2)

/-- SHR Vx (R162, R163): VX alone is shifted, VF = the bit shifted out. -/
def execShr (x : Reg) (s : State) : Outcome :=
  .next ((s.setResultFlag x (s.reg x >>> 1) (lowBit (s.reg x))).advance 2)

/-- SHL Vx (R164, R163): VX alone is shifted, VF = the bit shifted out. -/
def execShl (x : Reg) (s : State) : Outcome :=
  .next ((s.setResultFlag x (s.reg x <<< 1) (highBit (s.reg x))).advance 2)

end Sys2Proof.Machine
end

