-- ==== Sys2Proof/Machine/Control.lean ====
section
/-! DEFINITION. Control flow (41_control_flow.md): RET, JP, CALL, the four skips on register values and
JP V0. -/

namespace Sys2Proof.Machine

/-- A conditional skip: pc + 4 if the condition holds, else pc + 2 (R138). -/
def skipIf (c : Bool) (s : State) : State := if c then s.advance 4 else s.advance 2

/-- RET (R131): pop the address of the CALL and go on after it. -/
def execRet (s : State) : Outcome :=
  withPop s fun w t => .next (t.setPc (w + 2))

/-- JP nnn (R132). -/
def execJp (nnn : Addr12) (s : State) : Outcome := .next (s.setPc (immAddr nnn))

/-- CALL nnn (R133): push the address of this CALL, go to NNN. -/
def execCall (nnn : Addr12) (s : State) : Outcome :=
  withPush s s.pc fun t => .next (t.setPc (immAddr nnn))

/-- SE Vx, kk (R134). -/
def execSeImm (x : Reg) (nn : Byte) (s : State) : Outcome := .next (skipIf (s.reg x == nn) s)

/-- SNE Vx, kk (R135). -/
def execSneImm (x : Reg) (nn : Byte) (s : State) : Outcome := .next (skipIf (s.reg x != nn) s)

/-- SE Vx, Vy (R136). -/
def execSeReg (x y : Reg) (s : State) : Outcome := .next (skipIf (s.reg x == s.reg y) s)

/-- SNE Vx, Vy (R137). -/
def execSneReg (x y : Reg) (s : State) : Outcome := .next (skipIf (s.reg x != s.reg y) s)

/-- JP V0, nnn (R141): the register added is V0. -/
def execJpV0 (nnn : Addr12) (s : State) : Outcome :=
  .next (s.setPc (immAddr nnn + byteToWord (s.reg 0)))

end Sys2Proof.Machine
end

