-- ==== Sys2Proof/Machine/Display.lean ====
section
/-! DEFINITION. The display and the sprite rasterizer (44_display.md): CLS and DRW. The drawing is the
loop of R202: rows from the top, in each row the pixels from the left. -/

namespace Sys2Proof.Machine

/-- The pixel `disp[px][py]` (R32). -/
def Display.pixel (d : Display) (px : Fin 64) (py : Fin 32) : Bool := d[px][py]

/-- Invert one pixel (R200: drawing is by XOR). -/
def Display.flip (d : Display) (px : Fin 64) (py : Fin 32) : Display :=
  d.set px (d[px].set py (!(d.pixel px py)))

/-- The column of the pixel at offset i, `(x0 + i) mod 64` (R203). -/
def spriteColumn (x0 : Byte) (i : Nat) : Fin 64 := Fin.ofNat 64 (x0.toNat + i)

/-- The row of the pixels of sprite row j, `(y0 + j) mod 32` (R203). -/
def spriteRow (y0 : Byte) (j : Nat) : Fin 32 := Fin.ofNat 32 (y0.toNat + j)

/-- The bit of a sprite row for the pixel at offset i: bit 7 - i, the most significant leftmost (R204,
decision D13). -/
def spriteBit (row : Byte) (i : Nat) : Bool := row.getLsbD (7 - i)

/-- What drawing changes: the display, and whether a set pixel was turned off so far (R205). -/
abbrev Canvas := Display × Bool

/-- Draw one pixel if its sprite bit is 1 (R202). -/
def drawPixel (px : Fin 64) (py : Fin 32) (bit : Bool) (c : Canvas) : Canvas :=
  if bit then (Display.flip c.1 px py, c.2 || Display.pixel c.1 px py) else c

/-- Draw the first n pixels of a sprite row (R202, the loop over i). -/
def drawRow (row x0 : Byte) (py : Fin 32) : Nat → Canvas → Canvas
  | 0, c => c
  | i + 1, c => drawPixel (spriteColumn x0 i) py (spriteBit row i) (drawRow row x0 py i c)

/-- Draw the first n rows of the sprite at `a` (R202, the loop over j). -/
def drawSprite (m : Memory) (a : Nat) (x0 y0 : Byte) : Nat → Canvas → Canvas
  | 0, c => c
  | j + 1, c => drawRow (m.read (a + j)) x0 (spriteRow y0 j) 8 (drawSprite m a x0 y0 j c)

/-- CLS (R201): every pixel 0, dirty true. -/
def execCls (s : State) : Outcome :=
  .next (((s.setDisp blankDisplay).setDirty true).advance 2)

/-- The state after a drawing: the display, VF = collision, dirty true (R205, R206). -/
def State.setCanvas (s : State) (c : Canvas) : State :=
  ((s.setDisp c.1).setFlag c.2).setDirty true

/-- DRW Vx, Vy, n (R202): the coordinates are VX and VY before VF is written; with N = 0 nothing is
read and nothing drawn (R207). -/
def execDrw (x y : Reg) (n : Rows) (s : State) : Outcome :=
  withAccess s.indexAddr n.val
    (.next ((s.setCanvas (drawSprite s.mem s.indexAddr (s.reg x) (s.reg y) n.val (s.disp, false))).advance 2))

end Sys2Proof.Machine
end

