-- ==== Sys2Proof/Machine/Index.lean ====
section
/-! DEFINITION. The index register and memory instructions (43_index_memory.md): LD I, ADD I, LD F,
LD B, and the block store and load. -/

namespace Sys2Proof.Machine

/-- LD I, nnn (R180). -/
def execLdI (nnn : Addr12) (s : State) : Outcome := .next ((s.setI (immAddr nnn)).advance 2)

/-- ADD I, Vx (R181): I wraps mod 2^16 (decision D5), VF = the sum exceeds 0xFFF. The addend is VX
before VF is written. -/
def execAddI (x : Reg) (s : State) : Outcome :=
  .next (((s.setI (s.i + byteToWord (s.reg x))).setFlag (indexOverflow s.i (s.reg x))).advance 2)

/-- LD F, Vx (R184): I = FONT_BASE + 5 × VX. -/
def execLdF (x : Reg) (s : State) : Outcome := .next ((s.setI (glyphAddr (s.reg x))).advance 2)

/-- LD B, Vx (R185): the three decimal digits of VX to I, I + 1, I + 2. -/
def execLdB (x : Reg) (s : State) : Outcome :=
  withAccess s.indexAddr 3
    (.next ((s.setMem (s.mem.writeBytes s.indexAddr (bcdDigits (s.reg x)))).advance 2))

/-- LD [I], Vx (R186): V0..VX to I.., then I = X + 1. -/
def execLdMemVx (x : Reg) (s : State) : Outcome :=
  withAccess s.indexAddr (blockLen x)
    (.next (((s.setMem (s.mem.writeBytes s.indexAddr (s.regBlock x))).setI (blockIndex x)).advance 2))

/-- LD Vx, [I] (R187): V0..VX from I.., then I = X + 1. -/
def execLdVxMem (x : Reg) (s : State) : Outcome :=
  withAccess s.indexAddr (blockLen x)
    (.next (((s.setRegs (loadRegs s.mem s.indexAddr (blockLen x) s.v)).setI (blockIndex x)).advance 2))

end Sys2Proof.Machine
end

