-- ==== Sys2Proof/Machine/Input.lean ====
section
/-! DEFINITION. The random, key and timer instructions (45_timers_input_random.md). -/

namespace Sys2Proof.Machine

/-- RND Vx, kk (R220): VX = rnd AND kk, with rnd the Step's free random byte (R37, assumption 3). -/
def execRnd (x : Reg) (nn : Byte) (s : State) : Outcome :=
  .next (((s.setV x (Config.randomByte s.rndPos &&& nn)).setRndPos (s.rndPos + 1)).advance 2)

/-- SKP Vx (R221): skip if key VX is pressed; `BoundsError(key)` for VX above 15 (R223). -/
def execSkp (x : Reg) (s : State) : Outcome :=
  withKey (s.reg x) fun k => .next (skipIf s.key[k] s)

/-- SKNP Vx (R222): skip if key VX is not pressed; `BoundsError(key)` for VX above 15 (R223). -/
def execSknp (x : Reg) (s : State) : Outcome :=
  withKey (s.reg x) fun k => .next (skipIf (!s.key[k]) s)

/-- LD Vx, DT (R224). -/
def execLdVxDT (x : Reg) (s : State) : Outcome := .next ((s.setV x s.dt).advance 2)

/-- LD DT, Vx (R225). -/
def execLdDTVx (x : Reg) (s : State) : Outcome := .next ((s.setDT (s.reg x)).advance 2)

/-- LD ST, Vx (R226). -/
def execLdSTVx (x : Reg) (s : State) : Outcome := .next ((s.setST (s.reg x)).advance 2)

/-- What the scan of R227 has found after the keys 0..n-1: the last pressed one, for the scan does not
stop at the first. -/
def scanKeys (key : Vector Bool 16) : Nat → Option Nat
  | 0 => none
  | n + 1 => if key.toList.getD n false then some n else scanKeys key n

/-- LD Vx, K (R227): the highest pressed key to VX and pc + 2; with no key pressed the state stays as it
is, pc too, and the Step returns Ok. -/
def execLdVxK (x : Reg) (s : State) : Outcome :=
  match scanKeys s.key 16 with
  | none => .next s
  | some k => .next ((s.setV x (BitVec.ofNat 8 k)).advance 2)

end Sys2Proof.Machine
end

