-- ==== Sys2Proof/Machine/Step.lean ====
section
/-! DEFINITION. One Step of the block (40_step_cycle.md R110): fetch at pc, decode, execute. -/

namespace Sys2Proof.Machine

/-- The Step operation (R110). Nothing but the instruction's own rule writes pc. -/
def step (s : State) : Host.Outcome State Fault Refusal :=
  withFetched s fun i => exec i s

/-- The state with an instruction word stored where the next Step fetches it (the low `nbits` bits of
`w`, the bits above them 0). It stands for the host's program load (R60, assumption 4). -/
def State.withFetchWord (s : State) (nbits w : Nat) : State :=
  storeAtPc s (BitVec.ofNat 16 (w % 2 ^ nbits))

end Sys2Proof.Machine
end

