-- ==== Sys2Proof/Machine/Block.lean ====
section
/-! DEFINITION. The block with all its host operations (00_scope.md R7; 60_exceptions.md R260 to R266;
20_memory.md R60, R61): timer tick, key set, program load, frame query, dirty clear, and the Step, each
one atomic transition with an explicit result (R8), and a run of any sequence of them (R261, R266). -/

namespace Sys2Proof.Machine

/-- One timer one tick later: 1 less, floored at 0 (R260). -/
def timerTick (b : Byte) : Byte := if b = 0 then 0 else b - 1

/-- The host's `tick_timers()` (R260). -/
def tickTimers (s : State) : State := (s.setDT (timerTick s.dt)).setST (timerTick s.st)

/-- The host's `set_key(index, pressed)` (R262); the type admits exactly the indexes of its
precondition. -/
def setKey (k : Fin 16) (pressed : Bool) (s : State) : State := s.setKeys (s.key.set k pressed)

/-- The dirty clear (R265). -/
def clearDirty (s : State) : State := s.setDirty false

/-- The pixel part of the frame query (R264). -/
def queryPixel (x : Fin 64) (y : Fin 32) (s : State) : Bool := s.disp.pixel x y

/-- The dirty part of the frame query (R263). -/
def queryDirty (s : State) : Bool := s.dirty

/-- The program load address, 512, and the largest program, 3584 bytes (R9, R60). -/
def loadAddr : Nat := 512

/-- The effect of the load operation (R60): `TooLarge` above 3584 bytes, else the bytes from 512 on. No
register changes. -/
def loadProgram (bytes : List Byte) (s : State) : Except LoadError State :=
  if bytes.length > memSize - loadAddr then .error .tooLarge
  else .ok (s.setMem (s.mem.writeBytes loadAddr bytes))

/-- How far the boot order has gone (R283). -/
inductive Phase where
  /-- Neither a load has succeeded nor a Step been made. -/
  | constructed
  /-- A load has succeeded or a Step been made: no further load is admitted (R61). -/
  | started
deriving DecidableEq, Repr

/-- The block as its host sees it: the state, and how far the boot order has gone. The phase is the
model's own bookkeeping of R61's precondition, not state of the block (assumption 5). -/
structure Block where
  state : State
  phase : Phase
deriving DecidableEq, Repr

/-- A block just constructed (R280). -/
def Block.construct : Block := { state := State.reset, phase := .constructed }

/-- The operations of the block (R7). -/
inductive HostOp where
  | step
  | tick
  | setKey (k : Fin 16) (pressed : Bool)
  | load (bytes : List Byte)
  | queryDirty
  | queryPixel (x : Fin 64) (y : Fin 32)
  | clearDirty
deriving DecidableEq, Repr

/-- What an operation returns to the host (R8, R266). -/
inductive OpResult where
  /-- `Ok` of a Step or a load, or an operation that returns nothing. -/
  | ok
  /-- The error of a Step (R240). -/
  | error (f : Fault)
  /-- The error of a load (R60). -/
  | loadError (e : LoadError)
  /-- A frame query's answer (R263, R264). -/
  | bit (b : Bool)
  /-- The model has no move (R61). -/
  | refused (r : Refusal)
deriving DecidableEq, Repr

/-- The Step as a host operation (R115, R241): `Ok` and the next state, or the error and the state as it
was. -/
def Block.step (b : Block) : OpResult × Block :=
  match Sys2Proof.Machine.step b.state with
  | .next s => (.ok, { state := s, phase := .started })
  | .fault f => (.error f, { state := b.state, phase := .started })
  | .refused r => (.refused r, b)

/-- The load as a host operation (R60, R61, decision D18): admitted on a block that is as constructed; a
`TooLarge` load leaves it so; any other load has no move. -/
def Block.load (bytes : List Byte) (b : Block) : OpResult × Block :=
  if b.phase = .constructed ∧ b.state = State.reset then
    match loadProgram bytes b.state with
    | .ok s => (.ok, { state := s, phase := .started })
    | .error e => (.loadError e, b)
  else (.refused .loadNotAdmitted, b)

/-- One operation of the host (R7): its result and the block after it. -/
def Block.apply (op : HostOp) (b : Block) : OpResult × Block :=
  match op with
  | .step => b.step
  | .tick => (.ok, { b with state := tickTimers b.state })
  | .setKey k pressed => (.ok, { b with state := Sys2Proof.Machine.setKey k pressed b.state })
  | .load bytes => b.load bytes
  | .queryDirty => (.bit (Sys2Proof.Machine.queryDirty b.state), b)
  | .queryPixel x y => (.bit (Sys2Proof.Machine.queryPixel x y b.state), b)
  | .clearDirty => (.ok, { b with state := Sys2Proof.Machine.clearDirty b.state })

/-- The results that end a run: the first error of a Step is final (R246), and so is an operation the
model has no move for. -/
def OpResult.endsRun : OpResult → Bool
  | .ok => false
  | .error _ => true
  | .loadError _ => false
  | .bit _ => false
  | .refused _ => true

/-- A run: the operations one after the other up to the first that ends it, with the results they
returned (R18, R246). Any sequence of operations is a run, so ticks, key sets and Steps interleave
freely (R261). -/
def Block.run : List HostOp → Block → List OpResult × Block
  | [], b => ([], b)
  | op :: ops, b =>
    if (b.apply op).1.endsRun then ([(b.apply op).1], (b.apply op).2)
    else ((b.apply op).1 :: (Block.run ops (b.apply op).2).1, (Block.run ops (b.apply op).2).2)

end Sys2Proof.Machine
end

