-- ==== Sys2Proof/Safety.lean ====
section
/-! DEFINITION. The terms claims use: what an instruction may change (frames), which registers it reads
and writes (10_state.md R23), the invariants, the set of pixels under a sprite (44_display.md R208),
and what an error-free run and its end are (60_exceptions.md R246, R270). -/

namespace Sys2Proof.Machine

/-! ## Frames -/

/-- The parts of the state beside the program counter. -/
inductive Part where
  | regs | index | stack | delay | sound | keys | display | dirty | memory | random
deriving DecidableEq, Repr

/-- The part holds after what it held before. Memory is compared byte by byte, through the model's read
of one byte, at every address. -/
def Part.same (s t : State) : Part → Prop
  | .regs => ∀ k : Reg, t.v[k] = s.v[k]
  | .index => t.i = s.i
  | .stack => t.stack = s.stack ∧ t.sp = s.sp
  | .delay => t.dt = s.dt
  | .sound => t.st = s.st
  | .keys => t.key = s.key
  | .display => t.disp = s.disp
  | .dirty => t.dirty = s.dirty
  | .memory => ∀ a : Nat, t.mem.read a = s.mem.read a
  | .random => t.rndPos = s.rndPos

/-- Every part but those listed, and but the program counter, is unchanged from s to t. -/
def Frame (changed : List Part) (s t : State) : Prop := ∀ p : Part, p ∉ changed → p.same s t

/-- Every general register but those listed is unchanged from s to t. -/
def RegsSameBut (changed : List Reg) (s t : State) : Prop :=
  ∀ k : Reg, k ∉ changed → t.v[k] = s.v[k]

/-- Every byte outside the `len` bytes from `base` on reads after as it read before. -/
def MemorySameOutside (base len : Nat) (s t : State) : Prop :=
  ∀ a : Nat, a < base ∨ base + len ≤ a → t.mem.read a = s.mem.read a

/-! ## The register map (R23) -/

/-- The general registers an instruction reads, R23's first column. -/
def readsReg : Instr → Reg → Bool
  | .cls, _ => false
  | .ret, _ => false
  | .jp _, _ => false
  | .call _, _ => false
  | .seImm x _, k => k == x
  | .sneImm x _, k => k == x
  | .seReg x y, k => k == x || k == y
  | .ldImm _ _, _ => false
  | .addImm x _, k => k == x
  | .ldReg _ y, k => k == y
  | .or x y, k => k == x || k == y
  | .and x y, k => k == x || k == y
  | .xor x y, k => k == x || k == y
  | .addReg x y, k => k == x || k == y
  | .sub x y, k => k == x || k == y
  | .shr x, k => k == x
  | .subn x y, k => k == x || k == y
  | .shl x, k => k == x
  | .sneReg x y, k => k == x || k == y
  | .ldI _, _ => false
  | .jpV0 _, k => k == 0
  | .rnd _ _, _ => false
  | .drw x y _, k => k == x || k == y
  | .skp x, k => k == x
  | .sknp x, k => k == x
  | .ldVxDT _, _ => false
  | .ldVxK _, _ => false
  | .ldDTVx x, k => k == x
  | .ldSTVx x, k => k == x
  | .addI x, k => k == x
  | .ldF x, k => k == x
  | .ldB x, k => k == x
  | .ldMemVx x, k => decide (k.val ≤ x.val)
  | .ldVxMem _, _ => false

/-- The general registers an instruction writes, R23's second column. -/
def writesReg : Instr → Reg → Bool
  | .cls, _ => false
  | .ret, _ => false
  | .jp _, _ => false
  | .call _, _ => false
  | .seImm _ _, _ => false
  | .sneImm _ _, _ => false
  | .seReg _ _, _ => false
  | .ldImm x _, k => k == x
  | .addImm x _, k => k == x
  | .ldReg x _, k => k == x
  | .or x _, k => k == x
  | .and x _, k => k == x
  | .xor x _, k => k == x
  | .addReg x _, k => k == x || k == vf
  | .sub x _, k => k == x || k == vf
  | .shr x, k => k == x || k == vf
  | .subn x _, k => k == x || k == vf
  | .shl x, k => k == x || k == vf
  | .sneReg _ _, _ => false
  | .ldI _, _ => false
  | .jpV0 _, _ => false
  | .rnd x _, k => k == x
  | .drw _ _ _, k => k == vf
  | .skp _, _ => false
  | .sknp _, _ => false
  | .ldVxDT x, k => k == x
  | .ldVxK x, k => k == x
  | .ldDTVx _, _ => false
  | .ldSTVx _, _ => false
  | .addI _, k => k == vf
  | .ldF _, _ => false
  | .ldB _, _ => false
  | .ldMemVx _, _ => false
  | .ldVxMem x, k => decide (k.val ≤ x.val)

/-- The error an instruction's own execution can raise, R242's list. -/
def mayRaise : Instr → Fault → Prop
  | .cls, _ => False
  | .ret, f => f = .stackUnderflow
  | .jp _, _ => False
  | .call _, f => f = .stackOverflow
  | .seImm _ _, _ => False
  | .sneImm _ _, _ => False
  | .seReg _ _, _ => False
  | .ldImm _ _, _ => False
  | .addImm _ _, _ => False
  | .ldReg _ _, _ => False
  | .or _ _, _ => False
  | .and _ _, _ => False
  | .xor _ _, _ => False
  | .addReg _ _, _ => False
  | .sub _ _, _ => False
  | .shr _, _ => False
  | .subn _ _, _ => False
  | .shl _, _ => False
  | .sneReg _ _, _ => False
  | .ldI _, _ => False
  | .jpV0 _, _ => False
  | .rnd _ _, _ => False
  | .drw _ _ _, f => ∃ a, 0xFFF < a ∧ f = .boundsAddr a
  | .skp _, f => ∃ k : Byte, 15 < k.toNat ∧ f = .boundsKey k
  | .sknp _, f => ∃ k : Byte, 15 < k.toNat ∧ f = .boundsKey k
  | .ldVxDT _, _ => False
  | .ldVxK _, _ => False
  | .ldDTVx _, _ => False
  | .ldSTVx _, _ => False
  | .addI _, _ => False
  | .ldF _, _ => False
  | .ldB _, f => ∃ a, 0xFFF < a ∧ f = .boundsAddr a
  | .ldMemVx _, f => ∃ a, 0xFFF < a ∧ f = .boundsAddr a
  | .ldVxMem _, f => ∃ a, 0xFFF < a ∧ f = .boundsAddr a

/-- The outcome with its next state changed by f; an error or a refusal stays. -/
def mapNext (f : State → State) : Outcome → Outcome
  | .next s => .next (f s)
  | .fault e => .fault e
  | .refused r => .refused r

/-! ## Invariants -/

/-- Memory is in its canonical form. -/
def MemoryCanonical (s : State) : Prop := s.mem.wf = true

/-- The program counter and the return addresses in use keep to what Steps can produce (R26): pc is at
most 0x10FE, and every stacked address is one a CALL could be fetched from. -/
def ControlBounded (s : State) : Prop :=
  s.pc.toNat ≤ 0x10FE ∧ ∀ k : Fin 16, k.val < s.sp.val → s.stack[k].toNat ≤ 0xFFE

/-! ## The sprite's pixels (R208) -/

/-- The pixel (px, py) lies under a 1 bit of the sprite of n rows at address a, drawn at (x0, y0). -/
def spriteMask (m : Memory) (a : Nat) (x0 y0 : Byte) (n : Nat) (px : Fin 64) (py : Fin 32) : Bool :=
  (List.range n).any fun j => (List.range 8).any fun i =>
    (x0.toNat + i) % 64 == px.val && (y0.toNat + j) % 32 == py.val && (m.read (a + j)).getLsbD (7 - i)

/-! ## Illegal words (R87) -/

/-- R87's list of the illegal words, family by family. -/
def illegalWord (w : Word) : Bool :=
  (fieldF w == 0x0 && w != 0x00E0 && w != 0x00EE) ||
  (fieldF w == 0x5 && fieldN w != 0) ||
  (fieldF w == 0x8 && [0x8, 0x9, 0xA, 0xB, 0xC, 0xD, 0xF].contains (fieldN w)) ||
  (fieldF w == 0x9 && fieldN w != 0) ||
  (fieldF w == 0xE && !([0x9E, 0xA1] : List Byte).contains (fieldNN w)) ||
  (fieldF w == 0xF &&
    !([0x07, 0x0A, 0x15, 0x18, 0x1E, 0x29, 0x33, 0x55, 0x65] : List Byte).contains (fieldNN w))

/-- The word with its don't-care bits 0: the field Y of 8xy6 and 8xyE (R89). -/
def withoutDontCare (w : Word) : Word :=
  if fieldF w = 0x8 ∧ (fieldN w = 0x6 ∨ fieldN w = 0xE) then w &&& 0xFF0F else w

/-! ## Runs (R246, R270) -/

/-- No operation of the run returned an error and none was refused (R246). -/
def CleanRun (results : List OpResult) : Prop := ∀ r ∈ results, r.endsRun = false

/-- The halt of R270: pc is at H, the word there is `1hhh` with hhh = H, and it can be fetched. -/
def AtHalt (h : Addr12) (s : State) : Prop :=
  s.pc = immAddr h ∧ h.toNat ≤ 0xFFE ∧ s.mem.readWord h.toNat = (0x1 : BitVec 4) ++ h

/-- The state after the first n of these operations on a block just constructed. The operations are atomic
(R10), so these are the Step boundaries of the run. -/
def boundaryState (ops : List HostOp) (n : Nat) : State := (Block.run (ops.take n) Block.construct).2.state

/-- The run of these operations on a block just constructed ends successfully at H, and with the last of
them (R270): no operation returned an error, the halt is reached at the end of the operations, and at no
Step boundary before it. Operations that go on past the end are no such run. Assumption 24. -/
def EndsAt (h : Addr12) (ops : List HostOp) : Prop :=
  CleanRun (Block.run ops Block.construct).1 ∧ AtHalt h (boundaryState ops ops.length) ∧
    ∀ n : Nat, n < ops.length → ¬ AtHalt h (boundaryState ops n)

end Sys2Proof.Machine
end

