-- ==== Sys2Proof/Certificates/Slice0/Obligations.lean ====
section
/-! DEFINITION. The statements for the provers: each formalises or follows from the numbered rules of
spec/ that its docstring cites. A statement holds of every state, unless it names an invariant. -/

open Sys2Proof Sys2Proof.Machine

/-! ## Control flow -/

/-- 41_control_flow.md R131: RET pops the address of a CALL and goes on after it; on an empty stack it
raises StackUnderflow. The popped entry keeps its value. -/
def Obligations.ReturnPopsCallAddress : Prop :=
  ∀ s : State,
    (s.sp.val = 0 → exec .ret s = .fault .stackUnderflow) ∧
    (∀ h : 0 < s.sp.val, ∃ t, exec .ret s = .next t ∧
      t.sp.val = s.sp.val - 1 ∧ t.pc = (s.stack[s.sp.val - 1]'(by omega)) + 2 ∧ t.stack = s.stack ∧
      Frame [.stack] s t)

/-- 41_control_flow.md R133: CALL stacks its own address and goes to NNN; on a full stack it raises
StackOverflow. -/
def Obligations.CallStacksItsOwnAddress : Prop :=
  ∀ (nnn : Addr12) (s : State),
    (s.sp.val = 16 → exec (.call nnn) s = .fault .stackOverflow) ∧
    (∀ h : s.sp.val < 16, ∃ t, exec (.call nnn) s = .next t ∧
      t.stack[s.sp.val] = s.pc ∧
      (∀ k : Fin 16, k.val ≠ s.sp.val → t.stack[k] = s.stack[k]) ∧
      t.sp.val = s.sp.val + 1 ∧ t.pc.toNat = nnn.toNat ∧ Frame [.stack] s t)

/-- 41_control_flow.md R132 and R141: JP sets pc to NNN, JP V0 to NNN + V0, and nothing else changes. -/
def Obligations.JumpsSetOnlyPc : Prop :=
  ∀ (nnn : Addr12) (s : State),
    (∃ t, exec (.jp nnn) s = .next t ∧ t.pc.toNat = nnn.toNat ∧ Frame [] s t) ∧
    (∃ t, exec (.jpV0 nnn) s = .next t ∧
      t.pc.toNat = (nnn.toNat + (s.v[(0 : Reg)]).toNat) % 2 ^ 16 ∧ Frame [] s t)

/-- 41_control_flow.md R134 and R135: the skips on a register and a byte add 4 to pc if their condition
holds and 2 if not, and change nothing else. -/
def Obligations.ImmediateSkipsMovePcOnly : Prop :=
  ∀ (x : Reg) (nn : Byte) (s : State),
    (∃ t, exec (.seImm x nn) s = .next t ∧
      t.pc = (if s.v[x] = nn then s.pc + 4 else s.pc + 2) ∧ Frame [] s t) ∧
    (∃ t, exec (.sneImm x nn) s = .next t ∧
      t.pc = (if s.v[x] ≠ nn then s.pc + 4 else s.pc + 2) ∧ Frame [] s t)

/-- 41_control_flow.md, the skips on two registers (their encoding is the spec's own decision D3, which
this statement does not touch): they add 4 to pc if their condition holds and 2 if not, and change
nothing else. -/
def Obligations.RegisterSkipsMovePcOnly : Prop :=
  ∀ (x y : Reg) (s : State),
    (∃ t, exec (.seReg x y) s = .next t ∧
      t.pc = (if s.v[x] = s.v[y] then s.pc + 4 else s.pc + 2) ∧ Frame [] s t) ∧
    (∃ t, exec (.sneReg x y) s = .next t ∧
      t.pc = (if s.v[x] ≠ s.v[y] then s.pc + 4 else s.pc + 2) ∧ Frame [] s t)

/-- 41_control_flow.md R139: a RET undoes a CALL made at address a: pc is a + 2 and SP is as the CALL
found it, whatever ran between, if it left SP and the entries below it as they were. A CALL and RET nested
between may overwrite an entry at or above SP, which the statement does not compare. -/
def Obligations.ReturnUndoesCall : Prop :=
  ∀ (nnn : Addr12) (s t u : State), exec (.call nnn) s = .next t →
    u.sp = t.sp → (∀ k : Fin 16, k.val < t.sp.val → u.stack[k] = t.stack[k]) →
    ∃ r, exec .ret u = .next r ∧ r.pc = s.pc + 2 ∧ r.sp = s.sp

/-- 10_state.md R29: the call stack and its pointer are changed by no instruction but CALL and RET. -/
def Obligations.StackChangedByCallAndRetOnly : Prop :=
  ∀ (i : Instr) (s t : State), exec i s = .next t → i ≠ .ret → (∀ nnn, i ≠ .call nnn) →
    t.stack = s.stack ∧ t.sp = s.sp

/-! ## Register arithmetic and logic -/

/-- 42_alu.md R151 and R152: the load and the add of a byte write VX alone; the add wraps and sets no
flag. -/
def Obligations.ImmediateLoadAndAddWriteVx : Prop :=
  ∀ (x : Reg) (nn : Byte) (s : State),
    (∃ t, exec (.ldImm x nn) s = .next t ∧ t.v[x] = nn ∧ t.pc = s.pc + 2 ∧
      RegsSameBut [x] s t ∧ Frame [.regs] s t) ∧
    (∃ t, exec (.addImm x nn) s = .next t ∧
      (t.v[x]).toNat = ((s.v[x]).toNat + nn.toNat) % 256 ∧ t.pc = s.pc + 2 ∧
      RegsSameBut [x] s t ∧ Frame [.regs] s t)

/-- 42_alu.md R153, R155 to R157: assign, OR, AND and XOR write VX alone, and leave VF alone unless it is
VX. -/
def Obligations.MoveAndLogicWriteVx : Prop :=
  ∀ (x y : Reg) (s : State),
    (∃ t, exec (.ldReg x y) s = .next t ∧ t.v[x] = s.v[y] ∧ t.pc = s.pc + 2 ∧
      RegsSameBut [x] s t ∧ Frame [.regs] s t) ∧
    (∃ t, exec (.or x y) s = .next t ∧ t.v[x] = s.v[x] ||| s.v[y] ∧ t.pc = s.pc + 2 ∧
      RegsSameBut [x] s t ∧ Frame [.regs] s t) ∧
    (∃ t, exec (.and x y) s = .next t ∧ t.v[x] = s.v[x] &&& s.v[y] ∧ t.pc = s.pc + 2 ∧
      RegsSameBut [x] s t ∧ Frame [.regs] s t) ∧
    (∃ t, exec (.xor x y) s = .next t ∧ t.v[x] = s.v[x] ^^^ s.v[y] ∧ t.pc = s.pc + 2 ∧
      RegsSameBut [x] s t ∧ Frame [.regs] s t)

/-- 42_alu.md R158: 8XY4 writes the wrapped sum to VX and then the carry to VF, so that with X = F the
carry stands (that order is the spec's own decision D4). -/
def Obligations.AddReportsCarry : Prop :=
  ∀ (x y : Reg) (s : State), ∃ t, exec (.addReg x y) s = .next t ∧
    (x ≠ vf → (t.v[x]).toNat = ((s.v[x]).toNat + (s.v[y]).toNat) % 256) ∧
    t.v[vf] = (if (s.v[x]).toNat + (s.v[y]).toNat > 255 then 1 else 0) ∧
    t.pc = s.pc + 2 ∧ RegsSameBut [x, vf] s t ∧ Frame [.regs] s t

/-- 42_alu.md R159 and R160: both subtractions write the wrapped difference to VX and then the no-borrow
flag to VF, so that with X = F the flag stands (that order, and the wrap of 8XY7, are the spec's own
decision D4). -/
def Obligations.SubtractionsReportNoBorrow : Prop :=
  ∀ (x y : Reg) (s : State),
    (∃ t, exec (.sub x y) s = .next t ∧
      (x ≠ vf → ((t.v[x]).toNat : Int) = ((s.v[x]).toNat - (s.v[y]).toNat : Int) % 256) ∧
      t.v[vf] = (if (s.v[y]).toNat ≤ (s.v[x]).toNat then 1 else 0) ∧
      t.pc = s.pc + 2 ∧ RegsSameBut [x, vf] s t ∧ Frame [.regs] s t) ∧
    (∃ t, exec (.subn x y) s = .next t ∧
      (x ≠ vf → ((t.v[x]).toNat : Int) = ((s.v[y]).toNat - (s.v[x]).toNat : Int) % 256) ∧
      t.v[vf] = (if (s.v[x]).toNat ≤ (s.v[y]).toNat then 1 else 0) ∧
      t.pc = s.pc + 2 ∧ RegsSameBut [x, vf] s t ∧ Frame [.regs] s t)

/-- 42_alu.md R162 and R164: the shifts shift VX alone and report the bit shifted out in VF, which
stands with X = F (the spec's own decision D4). -/
def Obligations.ShiftsReportBitShiftedOut : Prop :=
  ∀ (x : Reg) (s : State),
    (∃ t, exec (.shr x) s = .next t ∧ (x ≠ vf → (t.v[x]).toNat = (s.v[x]).toNat / 2) ∧
      (t.v[vf]).toNat = (s.v[x]).toNat % 2 ∧
      t.pc = s.pc + 2 ∧ RegsSameBut [x, vf] s t ∧ Frame [.regs] s t) ∧
    (∃ t, exec (.shl x) s = .next t ∧ (x ≠ vf → (t.v[x]).toNat = (2 * (s.v[x]).toNat) % 256) ∧
      (t.v[vf]).toNat = (s.v[x]).toNat / 128 ∧
      t.pc = s.pc + 2 ∧ RegsSameBut [x, vf] s t ∧ Frame [.regs] s t)

/-! ## The index register and memory -/

/-- 43_index_memory.md R180: LD I sets I to NNN and changes nothing else. -/
def Obligations.LoadIndexSetsI : Prop :=
  ∀ (nnn : Addr12) (s : State), ∃ t, exec (.ldI nnn) s = .next t ∧ t.i.toNat = nnn.toNat ∧
    t.pc = s.pc + 2 ∧ Frame [.index] s t

/-- 43_index_memory.md R184: LD F sets I to FONT_BASE + 5 × VX. That VX is not masked is the spec's own
decision D25; FONT_BASE is the parameter of R64 (log entry 1), so the statement holds of every value it
may have. -/
def Obligations.FontPointerSetsI : Prop :=
  ∀ (x : Reg) (s : State), ∃ t, exec (.ldF x) s = .next t ∧
    t.i.toNat = Config.fontBase + 5 * (s.v[x]).toNat ∧ t.pc = s.pc + 2 ∧ Frame [.index] s t

/-- 43_index_memory.md R181: FX1E adds VX to I, wrapping at 16 bits (the spec's own decision D5), and VF
reports a sum above 0xFFF; with X = F the addend is VF's old value (decision D4). -/
def Obligations.IndexAddReportsOverflow : Prop :=
  ∀ (x : Reg) (s : State), ∃ t, exec (.addI x) s = .next t ∧
    t.i.toNat = (s.i.toNat + (s.v[x]).toNat) % 2 ^ 16 ∧
    t.v[vf] = (if s.i.toNat + (s.v[x]).toNat > 0xFFF then 1 else 0) ∧
    t.pc = s.pc + 2 ∧ RegsSameBut [vf] s t ∧ Frame [.regs, .index] s t

/-- 43_index_memory.md R185: FX33 stores the three decimal digits of VX at I, I + 1, I + 2 and changes
nothing else; if I + 2 passes 0xFFF it raises BoundsError with the first address above 0xFFF (the spec's own
decision D6). -/
def Obligations.BcdStoresThreeDigits : Prop :=
  ∀ (x : Reg) (s : State),
    (0xFFF < s.i.toNat + 2 → exec (.ldB x) s = .fault (.boundsAddr (max s.i.toNat 0x1000))) ∧
    (s.i.toNat + 2 ≤ 0xFFF → ∃ t, exec (.ldB x) s = .next t ∧
      (t.mem.read s.i.toNat).toNat = (s.v[x]).toNat / 100 ∧
      (t.mem.read (s.i.toNat + 1)).toNat = (s.v[x]).toNat / 10 % 10 ∧
      (t.mem.read (s.i.toNat + 2)).toNat = (s.v[x]).toNat % 10 ∧
      MemorySameOutside s.i.toNat 3 s t ∧ t.pc = s.pc + 2 ∧ Frame [.memory] s t)

/-- 43_index_memory.md R186: FX55 stores V0..VX at I on and leaves I = X + 1; if I + X passes 0xFFF it
raises BoundsError with the first address above 0xFFF (the spec's own decision D6). -/
def Obligations.BlockStoreWritesRegisters : Prop :=
  ∀ (x : Reg) (s : State),
    (0xFFF < s.i.toNat + x.val →
      exec (.ldMemVx x) s = .fault (.boundsAddr (max s.i.toNat 0x1000))) ∧
    (s.i.toNat + x.val ≤ 0xFFF → ∃ t, exec (.ldMemVx x) s = .next t ∧
      (∀ k : Reg, k.val ≤ x.val → t.mem.read (s.i.toNat + k.val) = s.v[k]) ∧
      MemorySameOutside s.i.toNat (x.val + 1) s t ∧
      t.i.toNat = x.val + 1 ∧ t.pc = s.pc + 2 ∧ Frame [.memory, .index] s t)

/-- 43_index_memory.md R187: FX65 loads V0..VX from I on and leaves I = X + 1; if I + X passes 0xFFF it
raises BoundsError with the first address above 0xFFF (the spec's own decision D6). -/
def Obligations.BlockLoadReadsRegisters : Prop :=
  ∀ (x : Reg) (s : State),
    (0xFFF < s.i.toNat + x.val →
      exec (.ldVxMem x) s = .fault (.boundsAddr (max s.i.toNat 0x1000))) ∧
    (s.i.toNat + x.val ≤ 0xFFF → ∃ t, exec (.ldVxMem x) s = .next t ∧
      (∀ k : Reg, t.v[k] = if k.val ≤ x.val then s.mem.read (s.i.toNat + k.val) else s.v[k]) ∧
      t.i.toNat = x.val + 1 ∧ t.pc = s.pc + 2 ∧ Frame [.regs, .index] s t)

/-- 43_index_memory.md R188: a block load at the address of a block store gives V0..VX back, whatever ran
between, if memory and the address stayed; I is X + 1 after each of the two. -/
def Obligations.BlockLoadUndoesBlockStore : Prop :=
  ∀ (x : Reg) (s t u : State), exec (.ldMemVx x) s = .next t →
    u.mem = t.mem → u.i = s.i →
    ∃ r, exec (.ldVxMem x) u = .next r ∧ (∀ k : Reg, k.val ≤ x.val → r.v[k] = s.v[k]) ∧
      t.i.toNat = x.val + 1 ∧ r.i.toNat = x.val + 1

/-- 20_memory.md R54: after FX55 has stored V0 and V1 at a and a + 1, a Step at a fetches V0 as the high
and V1 as the low byte of its instruction, and runs it. That a later fetch sees the stored byte at once
(R68) is the spec's own decision D17, log entry 20. -/
def Obligations.StoredBytesAreFetched : Prop :=
  ∀ (x : Reg) (s t u : State) (i : Instr), 1 ≤ x.val → exec (.ldMemVx x) s = .next t →
    u.mem = t.mem → u.pc = s.i →
    decode (s.v[(0 : Reg)] ++ s.v[(1 : Reg)]) = .ok i → step u = exec i u

/-- 20_memory.md R56 (the writes of its table): no instruction but FX33 and FX55 changes a byte of
memory. -/
def Obligations.MemoryWrittenByStoresOnly : Prop :=
  ∀ (i : Instr) (s t : State), exec i s = .next t → (∀ x, i ≠ .ldB x) → (∀ x, i ≠ .ldMemVx x) →
    ∀ a : Nat, t.mem.read a = s.mem.read a

/-! ## The display -/

/-- 44_display.md R201: CLS sets every pixel to 0 and dirty to true, and changes nothing else. -/
def Obligations.ClearScreenZeroesDisplay : Prop :=
  ∀ s : State, ∃ t, exec .cls s = .next t ∧
    (∀ (px : Fin 64) (py : Fin 32), t.disp[px][py] = false) ∧
    t.dirty = true ∧ t.pc = s.pc + 2 ∧ Frame [.display, .dirty] s t

/-- 44_display.md R202, R205 and R208: DXYN inverts exactly the pixels under a 1 bit of its sprite, VF is 1
exactly if one of them was 1, dirty is set, and nothing else changes. That the coordinates are VX and VY
before VF is written, and that the most significant bit is the leftmost pixel, are the spec's own
decisions D4 and D13. -/
def Obligations.DrawXorsSpriteAndReportsCollision : Prop :=
  ∀ (x y : Reg) (n : Rows) (s : State), (n.val = 0 ∨ s.i.toNat + n.val - 1 ≤ 0xFFF) →
    ∃ t, exec (.drw x y n) s = .next t ∧
      (∀ (px : Fin 64) (py : Fin 32), t.disp[px][py] =
        (s.disp[px][py] ^^ spriteMask s.mem s.i.toNat s.v[x] s.v[y] n.val px py)) ∧
      ((∃ (px : Fin 64) (py : Fin 32), s.disp[px][py] = true ∧
          spriteMask s.mem s.i.toNat s.v[x] s.v[y] n.val px py = true) → t.v[vf] = 1) ∧
      ((∀ (px : Fin 64) (py : Fin 32), s.disp[px][py] = true →
          spriteMask s.mem s.i.toNat s.v[x] s.v[y] n.val px py = false) → t.v[vf] = 0) ∧
      t.dirty = true ∧ t.pc = s.pc + 2 ∧ RegsSameBut [vf] s t ∧
      Frame [.regs, .display, .dirty] s t

/-- 44_display.md R202: with N > 0 and I + N - 1 above 0xFFF, DXYN raises BoundsError with the first
address above 0xFFF (the spec's own decision D6). -/
def Obligations.DrawOutOfBoundsFaults : Prop :=
  ∀ (x y : Reg) (n : Rows) (s : State), 0 < n.val → 0xFFF < s.i.toNat + n.val - 1 →
    exec (.drw x y n) s = .fault (.boundsAddr (max s.i.toNat 0x1000))

/-- 44_display.md R207: with N = 0, whatever I holds, DXYN draws nothing: VF = 0, dirty true, pc + 2. -/
def Obligations.DrawOfNoRowsDrawsNothing : Prop :=
  ∀ (x y : Reg) (s : State), ∃ t, exec (.drw x y 0) s = .next t ∧
    t.v[vf] = 0 ∧ t.dirty = true ∧ t.pc = s.pc + 2 ∧ RegsSameBut [vf] s t ∧
    Frame [.regs, .dirty] s t

/-- 44_display.md R209: the same sprite drawn twice at the same place restores every pixel, and the second
draw reports a collision exactly if a 1 bit of the sprite fell on a pixel that was 0 before the first. -/
def Obligations.DoubleDrawRestoresDisplay : Prop :=
  ∀ (x y : Reg) (n : Rows) (s t u r : State), exec (.drw x y n) s = .next t →
    u.disp = t.disp → u.i = s.i → u.v[x] = s.v[x] → u.v[y] = s.v[y] →
    (∀ a : Nat, u.mem.read a = s.mem.read a) → exec (.drw x y n) u = .next r →
    r.disp = s.disp ∧
    (r.v[vf] = 1 ↔ ∃ (px : Fin 64) (py : Fin 32), s.disp[px][py] = false ∧
      spriteMask s.mem s.i.toNat s.v[x] s.v[y] n.val px py = true) ∧
    (r.v[vf] = 0 ∨ r.v[vf] = 1)

/-! ## Random, keys and timers -/

/-- 45_timers_input_random.md R220: CXNN writes rnd AND NN to VX, with rnd the Step's random byte, a free
value of the model (log entry 3); the next CXNN takes the next byte. -/
def Obligations.RandomIsMasked : Prop :=
  ∀ (x : Reg) (nn : Byte) (s : State), ∃ t, exec (.rnd x nn) s = .next t ∧
    t.v[x] = Config.randomByte s.rndPos &&& nn ∧ t.v[x] &&& ~~~nn = 0 ∧ t.pc = s.pc + 2 ∧
    t.rndPos = s.rndPos + 1 ∧ RegsSameBut [x] s t ∧ Frame [.regs, .random] s t

/-- 45_timers_input_random.md R221 to R223: the key skips test key VX as it stands; a key index above 15
raises BoundsError with that index (the spec's own decision D7). -/
def Obligations.KeySkipsTestTheLatch : Prop :=
  ∀ (x : Reg) (s : State),
    (∀ h : (s.v[x]).toNat < 16,
      (∃ t, exec (.skp x) s = .next t ∧
        t.pc = (if s.key[(s.v[x]).toNat] = true then s.pc + 4 else s.pc + 2) ∧ Frame [] s t) ∧
      (∃ t, exec (.sknp x) s = .next t ∧
        t.pc = (if s.key[(s.v[x]).toNat] = false then s.pc + 4 else s.pc + 2) ∧ Frame [] s t)) ∧
    (15 < (s.v[x]).toNat →
      exec (.skp x) s = .fault (.boundsKey s.v[x]) ∧ exec (.sknp x) s = .fault (.boundsKey s.v[x]))

/-- 45_timers_input_random.md R224 to R226: FX07 reads DT into VX, FX15 and FX18 write DT and ST from
VX. -/
def Obligations.TimerTransfersCopyTheByte : Prop :=
  ∀ (x : Reg) (s : State),
    (∃ t, exec (.ldVxDT x) s = .next t ∧ t.v[x] = s.dt ∧ t.pc = s.pc + 2 ∧
      RegsSameBut [x] s t ∧ Frame [.regs] s t) ∧
    (∃ t, exec (.ldDTVx x) s = .next t ∧ t.dt = s.v[x] ∧ t.pc = s.pc + 2 ∧ Frame [.delay] s t) ∧
    (∃ t, exec (.ldSTVx x) s = .next t ∧ t.st = s.v[x] ∧ t.pc = s.pc + 2 ∧ Frame [.sound] s t)

/-- 45_timers_input_random.md R227: with no key pressed FX0A changes nothing, pc included; else VX takes
the highest pressed key and pc moves on by 2. -/
def Obligations.KeyWaitTakesHighestKey : Prop :=
  ∀ (x : Reg) (s : State),
    ((∀ k : Fin 16, s.key[k] = false) → exec (.ldVxK x) s = .next s) ∧
    (∀ k : Fin 16, s.key[k] = true → (∀ j : Fin 16, k < j → s.key[j] = false) →
      ∃ t, exec (.ldVxK x) s = .next t ∧ (t.v[x]).toNat = k.val ∧ t.pc = s.pc + 2 ∧
        RegsSameBut [x] s t ∧ Frame [.regs] s t)

/-- 40_step_cycle.md R116: no Step changes DT except FX15, which copies VX, or ST except FX18; none writes
the input latch, and none clears the dirty flag. -/
def Obligations.StepNeverTicksOrPressesKeys : Prop :=
  ∀ s t : State, step s = .next t →
    (t.dt = s.dt ∨ ∃ x, decode (s.mem.readWord s.pc.toNat) = .ok (.ldDTVx x) ∧ t.dt = s.v[x]) ∧
    (t.st = s.st ∨ ∃ x, decode (s.mem.readWord s.pc.toNat) = .ok (.ldSTVx x) ∧ t.st = s.v[x]) ∧
    t.key = s.key ∧ (s.dirty = true → t.dirty = true)

/-- 45_timers_input_random.md R228: a Step at a key wait with no key pressed leaves the whole state as it
was, so that any number of Steps does. -/
def Obligations.KeyWaitSuspends : Prop :=
  ∀ (x : Reg) (s : State) (n : Nat), s.pc.toNat ≤ 0xFFE →
    decode (s.mem.readWord s.pc.toNat) = .ok (.ldVxK x) → (∀ k : Fin 16, s.key[k] = false) →
    Host.Core.run Sys2Proof.core n s = .next s

/-! ## The whole machine -/

/-- 10_state.md R23 (its column of writes): an instruction that completes leaves every general register
that the map does not list as it was. -/
def Obligations.OnlyMappedRegistersAreWritten : Prop :=
  ∀ (i : Instr) (s t : State) (k : Reg), exec i s = .next t → writesReg i k = false → t.v[k] = s.v[k]

/-- 10_state.md R23 (its column of reads): the value of a general register that the map does not list as
read plays no part: one that is not written either passes through, and one that is written (by an
instruction other than FX0A, which may write nothing) leaves no trace. -/
def Obligations.UnmappedRegistersAreNotRead : Prop :=
  ∀ (i : Instr) (s : State) (k : Reg) (b : Byte), readsReg i k = false →
    (writesReg i k = false → exec i (s.setV k b) = mapNext (fun t => t.setV k b) (exec i s)) ∧
    (writesReg i k = true → (∀ x, i ≠ .ldVxK x) → exec i (s.setV k b) = exec i s)

/-- 40_step_cycle.md R117: every instruction but CXNN gives the same result for every random byte: which
byte is next plays no part in it. -/
def Obligations.RandomByteMattersToRndOnly : Prop :=
  ∀ (i : Instr) (s : State) (n : Nat), (∀ x nn, i ≠ .rnd x nn) →
    exec i (s.setRndPos n) = mapNext (fun t => t.setRndPos n) (exec i s)

/-- 10_state.md R30 and R33: no instruction reads the sound timer or the dirty flag: an instruction that
does not write it does the same whatever it holds, and carries it along. -/
def Obligations.SoundTimerAndDirtyAreNeverRead : Prop :=
  ∀ (i : Instr) (s : State) (b : Byte) (d : Bool),
    ((∀ x, i ≠ .ldSTVx x) → exec i (s.setST b) = mapNext (fun t => t.setST b) (exec i s)) ∧
    (∀ x, exec (.ldSTVx x) (s.setST b) = exec (.ldSTVx x) s) ∧
    (i ≠ .cls → (∀ x y n, i ≠ .drw x y n) →
      exec i (s.setDirty d) = mapNext (fun t => t.setDirty d) (exec i s)) ∧
    exec .cls (s.setDirty d) = exec .cls s ∧
    (∀ x y n, exec (.drw x y n) (s.setDirty d) = exec (.drw x y n) s)

/-- 60_exceptions.md R242: an instruction raises at most its own kind of error, and every instruction has
a meaning: none is refused. -/
def Obligations.EachInstructionRaisesItsOwnError : Prop :=
  ∀ (i : Instr) (s : State),
    (∀ f, exec i s = .fault f → mayRaise i f) ∧ (∀ r, exec i s ≠ .refused r)

/-- 10_state.md R26: no Step leads pc above 0x10FE, and every return address in use is one from which a
CALL was fetched (at most 0xFFE): the bounds are an invariant of the Step, so the 16-bit wrap of pc is
never needed (an inference of the spec's own, decision D24). -/
def Obligations.StepKeepsControlBounded : Prop :=
  ∀ s t : State, ControlBounded s → step s = .next t → ControlBounded t

/-- The canonical form of memory (the model's own representation of R36's memory, log entry 6) is kept by
every Step. -/
def Obligations.StepKeepsMemoryCanonical : Prop :=
  ∀ s t : State, MemoryCanonical s → step s = .next t → MemoryCanonical t

/-- 10_state.md R26 and R40: the state after construction meets both invariants. That pc is 0x200 and SP is
0 then are the spec's own decisions D9 and D10 (log entry 7); the canonical form of memory is the model's
own representation (log entry 6). -/
def Obligations.ResetMeetsTheInvariants : Prop :=
  ControlBounded State.reset ∧ MemoryCanonical State.reset

/-- 10_state.md R40: the values after construction; memory is zero but for the font table at FONT_BASE. The
values of pc and of everything but the registers and memory are the spec's own decisions D9 and D10, the
font bytes D12 (log entries 2 and 7). -/
def Obligations.ConstructionValues : Prop :=
  (∀ k : Reg, State.reset.v[k] = 0) ∧ State.reset.i = 0 ∧ State.reset.pc = 0x200 ∧
  State.reset.sp.val = 0 ∧ (∀ k : Fin 16, State.reset.stack[k] = 0) ∧
  State.reset.dt = 0 ∧ State.reset.st = 0 ∧ (∀ k : Fin 16, State.reset.key[k] = false) ∧
  (∀ (px : Fin 64) (py : Fin 32), State.reset.disp[px][py] = false) ∧
  State.reset.dirty = false ∧
  (∀ k : Fin 80, State.reset.mem.read (Config.fontBase + k.val) = Config.fontGlyphs.getD k.val 0) ∧
  (∀ a : Nat, a < Config.fontBase ∨ Config.fontBase + 80 ≤ a → State.reset.mem.read a = 0)

/-- 20_memory.md R62: while the font table reads as construction seeded it, FX29 with a digit in VX points I
at that digit's glyph: the five bytes from I on are its rows, from top to bottom (the glyph bytes are the
spec's own decision D12, log entry 2). Nothing is asked of the rest of memory. -/
def Obligations.FontPointerFindsTheGlyph : Prop :=
  ∀ (x : Reg) (s : State) (j : Nat), (s.v[x]).toNat < 16 → j < 5 →
    (∀ k : Fin 80, s.mem.read (Config.fontBase + k.val) = Config.fontGlyphs.getD k.val 0) →
    ∃ t, exec (.ldF x) s = .next t ∧
      t.mem.read (t.i.toNat + j) = Config.fontGlyphs.getD (5 * (s.v[x]).toNat + j) 0

/-! ## Fetch, decode and encode -/

/-- 40_step_cycle.md R110: a Step at a pc of at most 0xFFE whose two bytes (the first the high one) decode
to an instruction is that instruction run on the same state, with nothing around it. That this includes an
odd pc, which is fetched as it is, is the spec's own decision D14, log entry 17. -/
def Obligations.StepRunsTheDecodedInstruction : Prop :=
  ∀ (s : State) (i : Instr), s.pc.toNat ≤ 0xFFE →
    decode (s.mem.read s.pc.toNat ++ s.mem.read (s.pc.toNat + 1)) = .ok i → step s = exec i s

/-- 40_step_cycle.md R111: the fetch needs pc <= 0xFFE; at pc = 0xFFF a Step raises BoundsError with 0x1000
and above that with pc (the spec's own decision D6). -/
def Obligations.FetchOutOfBoundsFaults : Prop :=
  ∀ s : State, (s.pc = 0xFFF → step s = .fault (.boundsAddr 0x1000)) ∧
    (0x1000 ≤ s.pc.toNat → step s = .fault (.boundsAddr s.pc.toNat))

/-- 40_step_cycle.md R118: when decode refuses the fetched word, the Step returns UnknownOpcode with the raw
word, changes nothing and leaves pc at the word's address; a further Step with no host action between
returns the same error. -/
def Obligations.UnknownOpcodeIsReturned : Prop :=
  ∀ (b : Block) (e : DecodeError), b.state.pc.toNat ≤ 0xFFE →
    decode (b.state.mem.read b.state.pc.toNat ++ b.state.mem.read (b.state.pc.toNat + 1)) = .error e →
    (b.apply .step).1 = .error (.unknownOpcode
      (b.state.mem.read b.state.pc.toNat ++ b.state.mem.read (b.state.pc.toNat + 1))) ∧
    (b.apply .step).2.state = b.state ∧
    ((b.apply .step).2.apply .step).1 = (b.apply .step).1

/-- 30_encoding.md R85 and R82: decoding the word of an instruction gives the instruction back, with every
operand at every value (the bit patterns are the spec's own decision D1). -/
def Obligations.DecodeEncodeRoundTrip : Prop := ∀ i : Instr, decode (encode i) = .ok i

/-- 30_encoding.md R89: a word that decodes to an instruction is that instruction's word but for the Y field
of 8XY6 and 8XYE, which any value may fill: no other bit of a legal word is ignored (the strictness is the spec's own
decision D3). -/
def Obligations.OnlyShiftYIsIgnored : Prop :=
  (∀ (w : Word) (i : Instr), decode w = .ok i → withoutDontCare w = encode i) ∧
  (∀ (x y : Reg), decode (encodeXY 0x8 x y 0x6) = .ok (.shr x) ∧
    decode (encodeXY 0x8 x y 0xE) = .ok (.shl x))

/-- 30_encoding.md R87: the words the decoder refuses are exactly the listed ones, each with the raw word;
they are the words that no row of the opcode table accepts (the spec's own decisions D2 and D3). -/
def Obligations.DecoderRefusesExactlyIllegalWords : Prop :=
  ∀ w : Word, (decode w = .error (.unknownOpcode w) ↔ illegalWord w = true) ∧
    ((∃ i, decode w = .ok i) ↔ illegalWord w = false) ∧
    (wordWellFormed w = !(illegalWord w))

/-- 95_test_vectors.md and 30_encoding.md R86: a word of each of the 16 families (R16: the top nibble),
written out from the encoding, is the instruction it stands for (the bit patterns are the spec's own
decision D1, log entry 10). -/
def Obligations.SampleWordsDecode : Prop :=
  decode 0x00E0 = .ok .cls ∧ decode 0x1234 = .ok (.jp 0x234) ∧ decode 0x2300 = .ok (.call 0x300) ∧
  decode 0x3342 = .ok (.seImm 3 0x42) ∧ decode 0x4342 = .ok (.sneImm 3 0x42) ∧
  decode 0x5120 = .ok (.seReg 1 2) ∧ decode 0x6A2B = .ok (.ldImm 10 0x2B) ∧
  decode 0x7120 = .ok (.addImm 1 0x20) ∧ decode 0x8124 = .ok (.addReg 1 2) ∧
  decode 0x8476 = .ok (.shr 4) ∧ decode 0x9120 = .ok (.sneReg 1 2) ∧ decode 0xA2F0 = .ok (.ldI 0x2F0) ∧
  decode 0xB300 = .ok (.jpV0 0x300) ∧ decode 0xC30F = .ok (.rnd 3 0x0F) ∧
  decode 0xD125 = .ok (.drw 1 2 5) ∧ decode 0xE59E = .ok (.skp 5) ∧ decode 0xF255 = .ok (.ldMemVx 2) ∧
  decode 0x0123 = .error (.unknownOpcode 0x0123)

/-! ## The host's operations and runs -/

/-- 60_exceptions.md R260: a tick lowers both timers by 1, floored at 0, and changes nothing else. -/
def Obligations.TickLowersTimersToZero : Prop :=
  ∀ b : Block, (b.apply .tick).1 = .ok ∧
    (b.apply .tick).2.state.dt.toNat = b.state.dt.toNat - 1 ∧
    (b.apply .tick).2.state.st.toNat = b.state.st.toNat - 1 ∧
    (b.apply .tick).2.state.pc = b.state.pc ∧
    Frame [.delay, .sound] b.state (b.apply .tick).2.state

/-- 45_timers_input_random.md R229: after any number k of ticks the timers are k lower, floored at 0. -/
def Obligations.TicksAccumulate : Prop :=
  ∀ (k : Nat) (b : Block),
    (Block.run (List.replicate k .tick) b).2.state.dt.toNat = b.state.dt.toNat - k ∧
    (Block.run (List.replicate k .tick) b).2.state.st.toNat = b.state.st.toNat - k

/-- 60_exceptions.md R262: key set writes one entry of the latch and changes nothing else. The type of an
index is its precondition 0 to 15 (the spec's own decision D27: a model has no other move). -/
def Obligations.KeySetWritesOneEntry : Prop :=
  ∀ (b : Block) (k : Fin 16) (p : Bool), (b.apply (.setKey k p)).1 = .ok ∧
    (∀ j : Fin 16, (b.apply (.setKey k p)).2.state.key[j] = if j = k then p else b.state.key[j]) ∧
    (b.apply (.setKey k p)).2.state.pc = b.state.pc ∧
    Frame [.keys] b.state (b.apply (.setKey k p)).2.state

/-- 60_exceptions.md R263 to R265: the two frame queries answer the flag and the pixel and change nothing;
dirty clear clears the flag and nothing else. -/
def Obligations.FrameQueryAndDirtyClear : Prop :=
  ∀ (b : Block) (px : Fin 64) (py : Fin 32),
    b.apply .queryDirty = (.bit b.state.dirty, b) ∧
    b.apply (.queryPixel px py) = (.bit b.state.disp[px][py], b) ∧
    ((b.apply .clearDirty).1 = .ok ∧ (b.apply .clearDirty).2.state.dirty = false ∧
      (b.apply .clearDirty).2.state.pc = b.state.pc ∧
      Frame [.dirty] b.state (b.apply .clearDirty).2.state)

/-- 20_memory.md R60: on a block just constructed, a load of at most 3584 bytes puts them at 512 on and
changes nothing else; a longer one returns TooLarge and leaves the block as it was. -/
def Obligations.LoadPlacesTheProgram : Prop :=
  ∀ bytes : List Byte,
    (3584 < bytes.length → Block.construct.apply (.load bytes) = (.loadError .tooLarge, Block.construct)) ∧
    (bytes.length ≤ 3584 →
      (Block.construct.apply (.load bytes)).1 = .ok ∧
      (∀ (k : Nat) (h : k < bytes.length),
        (Block.construct.apply (.load bytes)).2.state.mem.read (512 + k) = bytes[k]) ∧
      MemorySameOutside 512 bytes.length State.reset (Block.construct.apply (.load bytes)).2.state ∧
      (Block.construct.apply (.load bytes)).2.state.pc = State.reset.pc ∧
      Frame [.memory] State.reset (Block.construct.apply (.load bytes)).2.state)

/-- 20_memory.md R61 and 70_reset_and_hazards.md R283: a Step, whatever it returns, and a load that returns
Ok start the block, and once it has started no run of operations makes a further load admissible: the model
has no move for it (the spec's own decision D18; the phase is the model's own, log entry 5). -/
def Obligations.NoLoadAfterTheStart : Prop :=
  (∀ b : Block, (b.apply .step).2.phase = .started) ∧
  (∀ (b : Block) (bytes : List Byte), (b.apply (.load bytes)).1 = .ok →
    (b.apply (.load bytes)).2.phase = .started) ∧
  ∀ (b : Block) (ops : List HostOp) (bytes : List Byte), b.phase = .started →
    ((Block.run ops b).2.apply (.load bytes)) = (.refused .loadNotAdmitted, (Block.run ops b).2)

/-- 60_exceptions.md R241 and R245: a Step that returns an error leaves the whole state as it was, so the
next Step returns the same error (the spec's own decision D8). -/
def Obligations.FailedStepChangesNothing : Prop :=
  ∀ (b : Block) (f : Fault), (b.apply .step).1 = .error f →
    (b.apply .step).2.state = b.state ∧ ((b.apply .step).2.apply .step).1 = .error f

/-- 10_state.md R26 and 60_exceptions.md R261: every run of host operations on a block just constructed
keeps both invariants, whatever bytes were loaded. The free interleaving is the spec's own decision D19 (log
entry 9), the start at pc = 0x200 with SP = 0 its decisions D9 and D10 (log entry 7), the bounds its
inference (decision D24); the canonical form of memory is the model's own representation (log entry 6). -/
def Obligations.RunsKeepTheInvariants : Prop :=
  ∀ ops : List HostOp, MemoryCanonical (Block.run ops Block.construct).2.state ∧
    ControlBounded (Block.run ops Block.construct).2.state

/-- 60_exceptions.md R270: at the halt, which is the spec's own definition (decision D31), every Step returns
Ok and changes nothing. -/
def Obligations.HaltIsStuck : Prop :=
  ∀ (h : Addr12) (s : State), AtHalt h s → step s = .next s

/-- 60_exceptions.md R270: a run from the halt stays there, whatever the host does: the host's operations may
change the timers, the keys and dirty and nothing else, and with no load among them none returns an error
(the halt is the spec's own definition, decision D31, log entry 24). -/
def Obligations.RunFromTheHaltStaysThere : Prop :=
  ∀ (h : Addr12) (b : Block) (ops : List HostOp), AtHalt h b.state →
    AtHalt h (Block.run ops b).2.state ∧
    Frame [.delay, .sound, .keys, .dirty] b.state (Block.run ops b).2.state ∧
    ((∀ bytes, HostOp.load bytes ∉ ops) → CleanRun (Block.run ops b).1)

/-- 60_exceptions.md R270: the end of a run is its first Step boundary at the halt, so of a sequence of
operations at most one beginning is a run that ends at H (the spec's own definition, decision D31, log
entry 24). -/
def Obligations.RunEndsAtItsFirstHalt : Prop :=
  ∀ (h : Addr12) (ops : List HostOp) (m n : Nat), m ≤ ops.length → n ≤ ops.length →
    EndsAt h (ops.take m) → EndsAt h (ops.take n) → m = n
end

