-- ==== Sys2Proof/Laws/Memory.lean ====
section
/-! SUPPORT. The laws of memory: a read after a write, in every memory, and that every memory operation
keeps the canonical form. -/

namespace Sys2Proof.Machine

/-! ### What a read gives -/

theorem read_of_not_listed {m : Memory} {a : Nat} (h : ∀ c ∈ m, c.1 ≠ a) :
    m.read a = Memory.initial a := by
  induction m with
  | nil => rfl
  | cons c m ih =>
    rw [Memory.read, if_neg (h c List.mem_cons_self).symm]
    exact ih fun d hd => h d (List.mem_cons_of_mem c hd)

theorem erase_not_listed (m : Memory) (a : Nat) : ∀ c ∈ m.erase a, c.1 ≠ a := by
  intro c hc
  simpa using (List.mem_filter.mp hc).2

theorem read_erase_other (m : Memory) {a a' : Nat} (h : a' ≠ a) :
    (m.erase a).read a' = m.read a' := by
  induction m with
  | nil => rfl
  | cons c m ih =>
    obtain ⟨k, b⟩ := c
    rw [Memory.erase, List.filter_cons]
    by_cases hk : k = a
    · subst hk
      rw [if_neg (by simp), Memory.read, if_neg h]
      exact ih
    · rw [if_pos (by simpa using hk), Memory.read, Memory.read]
      exact congrArg (ite (a' = k) b) ih

theorem read_insert_same {m : Memory} {a : Nat} (b : Byte) (h : ∀ c ∈ m, c.1 ≠ a) :
    (m.insert a b).read a = b := by
  induction m with
  | nil => simp [Memory.insert, Memory.read]
  | cons c m ih =>
    obtain ⟨k, e⟩ := c
    rw [Memory.insert]
    split
    · simp [Memory.read]
    · rw [Memory.read, if_neg (h (k, e) List.mem_cons_self).symm]
      exact ih fun d hd => h d (List.mem_cons_of_mem _ hd)

theorem read_insert_other (m : Memory) {a a' : Nat} (b : Byte) (h : a' ≠ a) :
    (m.insert a b).read a' = m.read a' := by
  induction m with
  | nil => simp [Memory.insert, Memory.read, h]
  | cons c m ih =>
    obtain ⟨k, e⟩ := c
    rw [Memory.insert]
    split
    · rw [Memory.read, if_neg h]
    · rw [Memory.read, Memory.read, ih]

/-- A read of the address just written gives the byte written. -/
@[simp] theorem read_write_same (m : Memory) (a : Nat) (b : Byte) : (m.write a b).read a = b := by
  unfold Memory.write
  split
  · next h => rw [read_of_not_listed (erase_not_listed m a), h]
  · exact read_insert_same b (erase_not_listed m a)

/-- A write leaves every other address alone. -/
theorem read_write_other (m : Memory) {a a' : Nat} (b : Byte) (h : a' ≠ a) :
    (m.write a b).read a' = m.read a' := by
  unfold Memory.write
  split
  · exact read_erase_other m h
  · rw [read_insert_other _ b h, read_erase_other m h]

/-- What an address reads as after bytes are stored at consecutive addresses: the byte stored there, or
what it read as before. -/
theorem read_writeBytes (bs : List Byte) : ∀ (m : Memory) (a k : Nat),
    (m.writeBytes a bs).read k = if a ≤ k then bs.getD (k - a) (m.read k) else m.read k := by
  induction bs with
  | nil => intro m a k; simp [Memory.writeBytes]
  | cons b bs ih =>
    intro m a k
    rw [Memory.writeBytes, ih]
    rcases Nat.lt_trichotomy k a with h | h | h
    · rw [if_neg (by omega), if_neg (by omega), read_write_other m b (by omega)]
    · subst h
      simp
    · obtain ⟨d, hd⟩ : ∃ d, k - a = d + 1 := ⟨k - a - 1, by omega⟩
      rw [if_pos (by omega), if_pos (by omega), read_write_other m b (by omega), hd,
        List.getD_cons_succ, show k - (a + 1) = d by omega]

/-- A byte outside the stored ones reads as before. -/
theorem read_writeBytes_outside (m : Memory) (bs : List Byte) {a k : Nat}
    (h : k < a ∨ a + bs.length ≤ k) : (m.writeBytes a bs).read k = m.read k := by
  rw [read_writeBytes]
  split
  · rw [List.getD_eq_default _ _ (by omega)]
  · rfl

/-- A byte inside the stored ones reads as stored. -/
theorem read_writeBytes_inside (m : Memory) (bs : List Byte) {a k : Nat} (h : k < bs.length) :
    (m.writeBytes a bs).read (a + k) = bs[k] := by
  rw [read_writeBytes, if_pos (by omega), Nat.add_sub_cancel_left, List.getD_eq_getElem _ _ h]

/-! ### The canonical form is kept -/

theorem wfFrom_mono {m : Memory} {lo lo' : Nat} (hlo : lo' ≤ lo) (h : Memory.wfFrom lo m = true) :
    Memory.wfFrom lo' m = true := by
  cases m with
  | nil => rfl
  | cons c m =>
    obtain ⟨k, b⟩ := c
    simp only [Memory.wfFrom, Bool.and_eq_true, decide_eq_true_eq] at h ⊢
    exact ⟨⟨⟨by omega, h.1.1.2⟩, h.1.2⟩, h.2⟩

theorem wfFrom_erase {m : Memory} {lo : Nat} (a : Nat) (h : Memory.wfFrom lo m = true) :
    Memory.wfFrom lo (m.erase a) = true := by
  induction m generalizing lo with
  | nil => rfl
  | cons c m ih =>
    obtain ⟨k, b⟩ := c
    simp only [Memory.wfFrom, Bool.and_eq_true, decide_eq_true_eq] at h
    rw [Memory.erase, List.filter_cons]
    split
    · simp only [Memory.wfFrom, Bool.and_eq_true, decide_eq_true_eq]
      exact ⟨h.1, ih h.2⟩
    · exact wfFrom_mono (by omega) (ih h.2)

theorem wfFrom_insert {m : Memory} {lo a : Nat} {b : Byte} (hlo : lo ≤ a) (ha : a < memSize)
    (hb : b ≠ Memory.initial a) (hm : ∀ c ∈ m, c.1 ≠ a) (h : Memory.wfFrom lo m = true) :
    Memory.wfFrom lo (m.insert a b) = true := by
  induction m generalizing lo with
  | nil => simp [Memory.insert, Memory.wfFrom, hlo, ha, hb]
  | cons c m ih =>
    obtain ⟨k, e⟩ := c
    have hk : k ≠ a := hm (k, e) List.mem_cons_self
    simp only [Memory.wfFrom, Bool.and_eq_true, decide_eq_true_eq] at h
    rw [Memory.insert]
    split
    · simp only [Memory.wfFrom, Bool.and_eq_true, decide_eq_true_eq]
      exact ⟨⟨⟨hlo, ha⟩, hb⟩, ⟨⟨by omega, h.1.1.2⟩, h.1.2⟩, h.2⟩
    · simp only [Memory.wfFrom, Bool.and_eq_true, decide_eq_true_eq]
      exact ⟨h.1, ih (by omega) (fun d hd => hm d (List.mem_cons_of_mem _ hd)) h.2⟩

/-- A write of an address that exists keeps the canonical form. -/
theorem write_wf {m : Memory} {a : Nat} (b : Byte) (ha : a < memSize) (h : m.wf = true) :
    (m.write a b).wf = true := by
  unfold Memory.write
  split
  · exact wfFrom_erase a h
  · next hb =>
    exact wfFrom_insert (Nat.zero_le a) ha hb (erase_not_listed m a) (wfFrom_erase a h)

/-- Storing bytes at addresses that exist keeps the canonical form. -/
theorem writeBytes_wf (bs : List Byte) : ∀ (m : Memory) (a : Nat), a + bs.length ≤ memSize →
    m.wf = true → (m.writeBytes a bs).wf = true := by
  induction bs with
  | nil => intro m a _ h; exact h
  | cons b bs ih =>
    intro m a ha h
    simp only [List.length_cons] at ha
    exact ih _ _ (by omega) (write_wf b (by omega) h)

/-- Memory after construction is in canonical form. -/
theorem reset_mem_wf : State.reset.mem.wf = true := rfl

/-! ### The contents after construction -/

/-- FONT_BASE + 80 <= 512 (R64). -/
theorem fontBase_bound : Config.fontBase + 80 ≤ 512 := by
  have := Config.fontBaseIndex.isLt
  unfold Config.fontBase
  omega

theorem fontGlyphs_length : Config.fontGlyphs.length = 80 := by decide

/-- The font table as construction seeds it (R62, R63). -/
theorem initial_font {k : Nat} (h : k < 80) :
    Memory.initial (Config.fontBase + k) = Config.fontGlyphs[k]'(by rw [fontGlyphs_length]; exact h) := by
  have := fontBase_bound
  rw [Memory.initial, if_pos (by omega), fontByteAt, if_pos (by omega), Nat.add_sub_cancel_left,
    List.getD_eq_getElem]

/-- Every byte outside the font table is zero after construction (R40). -/
theorem initial_zero {a : Nat} (h : a < Config.fontBase ∨ Config.fontBase + 80 ≤ a) :
    Memory.initial a = 0 := by
  unfold Memory.initial
  split
  · unfold fontByteAt
    split
    · exact List.getD_eq_default _ _ (by rw [fontGlyphs_length]; omega)
    · rfl
  · rfl

end Sys2Proof.Machine
end

