-- ==== Sys2Proof/Laws/State.lean ====
section
/-! SUPPORT. The small lemmas of State: one per field per update, each true by unfolding, so that no later
proof unfolds a record update; and what reading a register after a write gives. -/

namespace Sys2Proof.Machine

variable (s : State)

/-! ### setRegs -/

@[simp] theorem State.setRegs_v (v : Vector Byte 16) : (s.setRegs v).v = v := rfl
@[simp] theorem State.setRegs_i (v : Vector Byte 16) : (s.setRegs v).i = s.i := rfl
@[simp] theorem State.setRegs_pc (v : Vector Byte 16) : (s.setRegs v).pc = s.pc := rfl
@[simp] theorem State.setRegs_stack (v : Vector Byte 16) : (s.setRegs v).stack = s.stack := rfl
@[simp] theorem State.setRegs_sp (v : Vector Byte 16) : (s.setRegs v).sp = s.sp := rfl
@[simp] theorem State.setRegs_dt (v : Vector Byte 16) : (s.setRegs v).dt = s.dt := rfl
@[simp] theorem State.setRegs_st (v : Vector Byte 16) : (s.setRegs v).st = s.st := rfl
@[simp] theorem State.setRegs_key (v : Vector Byte 16) : (s.setRegs v).key = s.key := rfl
@[simp] theorem State.setRegs_disp (v : Vector Byte 16) : (s.setRegs v).disp = s.disp := rfl
@[simp] theorem State.setRegs_dirty (v : Vector Byte 16) : (s.setRegs v).dirty = s.dirty := rfl
@[simp] theorem State.setRegs_mem (v : Vector Byte 16) : (s.setRegs v).mem = s.mem := rfl
@[simp] theorem State.setRegs_rndPos (v : Vector Byte 16) : (s.setRegs v).rndPos = s.rndPos := rfl

/-! ### setV -/

@[simp] theorem State.setV_v (x : Reg) (b : Byte) : (s.setV x b).v = s.v.set x b := rfl
@[simp] theorem State.setV_i (x : Reg) (b : Byte) : (s.setV x b).i = s.i := rfl
@[simp] theorem State.setV_pc (x : Reg) (b : Byte) : (s.setV x b).pc = s.pc := rfl
@[simp] theorem State.setV_stack (x : Reg) (b : Byte) : (s.setV x b).stack = s.stack := rfl
@[simp] theorem State.setV_sp (x : Reg) (b : Byte) : (s.setV x b).sp = s.sp := rfl
@[simp] theorem State.setV_dt (x : Reg) (b : Byte) : (s.setV x b).dt = s.dt := rfl
@[simp] theorem State.setV_st (x : Reg) (b : Byte) : (s.setV x b).st = s.st := rfl
@[simp] theorem State.setV_key (x : Reg) (b : Byte) : (s.setV x b).key = s.key := rfl
@[simp] theorem State.setV_disp (x : Reg) (b : Byte) : (s.setV x b).disp = s.disp := rfl
@[simp] theorem State.setV_dirty (x : Reg) (b : Byte) : (s.setV x b).dirty = s.dirty := rfl
@[simp] theorem State.setV_mem (x : Reg) (b : Byte) : (s.setV x b).mem = s.mem := rfl
@[simp] theorem State.setV_rndPos (x : Reg) (b : Byte) : (s.setV x b).rndPos = s.rndPos := rfl

/-! ### setI -/

@[simp] theorem State.setI_v (w : Word) : (s.setI w).v = s.v := rfl
@[simp] theorem State.setI_i (w : Word) : (s.setI w).i = w := rfl
@[simp] theorem State.setI_pc (w : Word) : (s.setI w).pc = s.pc := rfl
@[simp] theorem State.setI_stack (w : Word) : (s.setI w).stack = s.stack := rfl
@[simp] theorem State.setI_sp (w : Word) : (s.setI w).sp = s.sp := rfl
@[simp] theorem State.setI_dt (w : Word) : (s.setI w).dt = s.dt := rfl
@[simp] theorem State.setI_st (w : Word) : (s.setI w).st = s.st := rfl
@[simp] theorem State.setI_key (w : Word) : (s.setI w).key = s.key := rfl
@[simp] theorem State.setI_disp (w : Word) : (s.setI w).disp = s.disp := rfl
@[simp] theorem State.setI_dirty (w : Word) : (s.setI w).dirty = s.dirty := rfl
@[simp] theorem State.setI_mem (w : Word) : (s.setI w).mem = s.mem := rfl
@[simp] theorem State.setI_rndPos (w : Word) : (s.setI w).rndPos = s.rndPos := rfl

/-! ### setPc -/

@[simp] theorem State.setPc_v (w : Word) : (s.setPc w).v = s.v := rfl
@[simp] theorem State.setPc_i (w : Word) : (s.setPc w).i = s.i := rfl
@[simp] theorem State.setPc_pc (w : Word) : (s.setPc w).pc = w := rfl
@[simp] theorem State.setPc_stack (w : Word) : (s.setPc w).stack = s.stack := rfl
@[simp] theorem State.setPc_sp (w : Word) : (s.setPc w).sp = s.sp := rfl
@[simp] theorem State.setPc_dt (w : Word) : (s.setPc w).dt = s.dt := rfl
@[simp] theorem State.setPc_st (w : Word) : (s.setPc w).st = s.st := rfl
@[simp] theorem State.setPc_key (w : Word) : (s.setPc w).key = s.key := rfl
@[simp] theorem State.setPc_disp (w : Word) : (s.setPc w).disp = s.disp := rfl
@[simp] theorem State.setPc_dirty (w : Word) : (s.setPc w).dirty = s.dirty := rfl
@[simp] theorem State.setPc_mem (w : Word) : (s.setPc w).mem = s.mem := rfl
@[simp] theorem State.setPc_rndPos (w : Word) : (s.setPc w).rndPos = s.rndPos := rfl

/-! ### advance -/

@[simp] theorem State.advance_v (n : Word) : (s.advance n).v = s.v := rfl
@[simp] theorem State.advance_i (n : Word) : (s.advance n).i = s.i := rfl
@[simp] theorem State.advance_pc (n : Word) : (s.advance n).pc = s.pc + n := rfl
@[simp] theorem State.advance_stack (n : Word) : (s.advance n).stack = s.stack := rfl
@[simp] theorem State.advance_sp (n : Word) : (s.advance n).sp = s.sp := rfl
@[simp] theorem State.advance_dt (n : Word) : (s.advance n).dt = s.dt := rfl
@[simp] theorem State.advance_st (n : Word) : (s.advance n).st = s.st := rfl
@[simp] theorem State.advance_key (n : Word) : (s.advance n).key = s.key := rfl
@[simp] theorem State.advance_disp (n : Word) : (s.advance n).disp = s.disp := rfl
@[simp] theorem State.advance_dirty (n : Word) : (s.advance n).dirty = s.dirty := rfl
@[simp] theorem State.advance_mem (n : Word) : (s.advance n).mem = s.mem := rfl
@[simp] theorem State.advance_rndPos (n : Word) : (s.advance n).rndPos = s.rndPos := rfl

/-! ### setStack -/

@[simp] theorem State.setStack_v (k : Vector Word 16) (p : Fin 17) : (s.setStack k p).v = s.v := rfl
@[simp] theorem State.setStack_i (k : Vector Word 16) (p : Fin 17) : (s.setStack k p).i = s.i := rfl
@[simp] theorem State.setStack_pc (k : Vector Word 16) (p : Fin 17) : (s.setStack k p).pc = s.pc := rfl
@[simp] theorem State.setStack_stack (k : Vector Word 16) (p : Fin 17) : (s.setStack k p).stack = k := rfl
@[simp] theorem State.setStack_sp (k : Vector Word 16) (p : Fin 17) : (s.setStack k p).sp = p := rfl
@[simp] theorem State.setStack_dt (k : Vector Word 16) (p : Fin 17) : (s.setStack k p).dt = s.dt := rfl
@[simp] theorem State.setStack_st (k : Vector Word 16) (p : Fin 17) : (s.setStack k p).st = s.st := rfl
@[simp] theorem State.setStack_key (k : Vector Word 16) (p : Fin 17) : (s.setStack k p).key = s.key := rfl
@[simp] theorem State.setStack_disp (k : Vector Word 16) (p : Fin 17) : (s.setStack k p).disp = s.disp := rfl
@[simp] theorem State.setStack_dirty (k : Vector Word 16) (p : Fin 17) : (s.setStack k p).dirty = s.dirty := rfl
@[simp] theorem State.setStack_mem (k : Vector Word 16) (p : Fin 17) : (s.setStack k p).mem = s.mem := rfl
@[simp] theorem State.setStack_rndPos (k : Vector Word 16) (p : Fin 17) : (s.setStack k p).rndPos = s.rndPos := rfl

/-! ### setDT -/

@[simp] theorem State.setDT_v (b : Byte) : (s.setDT b).v = s.v := rfl
@[simp] theorem State.setDT_i (b : Byte) : (s.setDT b).i = s.i := rfl
@[simp] theorem State.setDT_pc (b : Byte) : (s.setDT b).pc = s.pc := rfl
@[simp] theorem State.setDT_stack (b : Byte) : (s.setDT b).stack = s.stack := rfl
@[simp] theorem State.setDT_sp (b : Byte) : (s.setDT b).sp = s.sp := rfl
@[simp] theorem State.setDT_dt (b : Byte) : (s.setDT b).dt = b := rfl
@[simp] theorem State.setDT_st (b : Byte) : (s.setDT b).st = s.st := rfl
@[simp] theorem State.setDT_key (b : Byte) : (s.setDT b).key = s.key := rfl
@[simp] theorem State.setDT_disp (b : Byte) : (s.setDT b).disp = s.disp := rfl
@[simp] theorem State.setDT_dirty (b : Byte) : (s.setDT b).dirty = s.dirty := rfl
@[simp] theorem State.setDT_mem (b : Byte) : (s.setDT b).mem = s.mem := rfl
@[simp] theorem State.setDT_rndPos (b : Byte) : (s.setDT b).rndPos = s.rndPos := rfl

/-! ### setST -/

@[simp] theorem State.setST_v (b : Byte) : (s.setST b).v = s.v := rfl
@[simp] theorem State.setST_i (b : Byte) : (s.setST b).i = s.i := rfl
@[simp] theorem State.setST_pc (b : Byte) : (s.setST b).pc = s.pc := rfl
@[simp] theorem State.setST_stack (b : Byte) : (s.setST b).stack = s.stack := rfl
@[simp] theorem State.setST_sp (b : Byte) : (s.setST b).sp = s.sp := rfl
@[simp] theorem State.setST_dt (b : Byte) : (s.setST b).dt = s.dt := rfl
@[simp] theorem State.setST_st (b : Byte) : (s.setST b).st = b := rfl
@[simp] theorem State.setST_key (b : Byte) : (s.setST b).key = s.key := rfl
@[simp] theorem State.setST_disp (b : Byte) : (s.setST b).disp = s.disp := rfl
@[simp] theorem State.setST_dirty (b : Byte) : (s.setST b).dirty = s.dirty := rfl
@[simp] theorem State.setST_mem (b : Byte) : (s.setST b).mem = s.mem := rfl
@[simp] theorem State.setST_rndPos (b : Byte) : (s.setST b).rndPos = s.rndPos := rfl

/-! ### setKeys -/

@[simp] theorem State.setKeys_v (k : Vector Bool 16) : (s.setKeys k).v = s.v := rfl
@[simp] theorem State.setKeys_i (k : Vector Bool 16) : (s.setKeys k).i = s.i := rfl
@[simp] theorem State.setKeys_pc (k : Vector Bool 16) : (s.setKeys k).pc = s.pc := rfl
@[simp] theorem State.setKeys_stack (k : Vector Bool 16) : (s.setKeys k).stack = s.stack := rfl
@[simp] theorem State.setKeys_sp (k : Vector Bool 16) : (s.setKeys k).sp = s.sp := rfl
@[simp] theorem State.setKeys_dt (k : Vector Bool 16) : (s.setKeys k).dt = s.dt := rfl
@[simp] theorem State.setKeys_st (k : Vector Bool 16) : (s.setKeys k).st = s.st := rfl
@[simp] theorem State.setKeys_key (k : Vector Bool 16) : (s.setKeys k).key = k := rfl
@[simp] theorem State.setKeys_disp (k : Vector Bool 16) : (s.setKeys k).disp = s.disp := rfl
@[simp] theorem State.setKeys_dirty (k : Vector Bool 16) : (s.setKeys k).dirty = s.dirty := rfl
@[simp] theorem State.setKeys_mem (k : Vector Bool 16) : (s.setKeys k).mem = s.mem := rfl
@[simp] theorem State.setKeys_rndPos (k : Vector Bool 16) : (s.setKeys k).rndPos = s.rndPos := rfl

/-! ### setDisp -/

@[simp] theorem State.setDisp_v (d : Display) : (s.setDisp d).v = s.v := rfl
@[simp] theorem State.setDisp_i (d : Display) : (s.setDisp d).i = s.i := rfl
@[simp] theorem State.setDisp_pc (d : Display) : (s.setDisp d).pc = s.pc := rfl
@[simp] theorem State.setDisp_stack (d : Display) : (s.setDisp d).stack = s.stack := rfl
@[simp] theorem State.setDisp_sp (d : Display) : (s.setDisp d).sp = s.sp := rfl
@[simp] theorem State.setDisp_dt (d : Display) : (s.setDisp d).dt = s.dt := rfl
@[simp] theorem State.setDisp_st (d : Display) : (s.setDisp d).st = s.st := rfl
@[simp] theorem State.setDisp_key (d : Display) : (s.setDisp d).key = s.key := rfl
@[simp] theorem State.setDisp_disp (d : Display) : (s.setDisp d).disp = d := rfl
@[simp] theorem State.setDisp_dirty (d : Display) : (s.setDisp d).dirty = s.dirty := rfl
@[simp] theorem State.setDisp_mem (d : Display) : (s.setDisp d).mem = s.mem := rfl
@[simp] theorem State.setDisp_rndPos (d : Display) : (s.setDisp d).rndPos = s.rndPos := rfl

/-! ### setDirty -/

@[simp] theorem State.setDirty_v (b : Bool) : (s.setDirty b).v = s.v := rfl
@[simp] theorem State.setDirty_i (b : Bool) : (s.setDirty b).i = s.i := rfl
@[simp] theorem State.setDirty_pc (b : Bool) : (s.setDirty b).pc = s.pc := rfl
@[simp] theorem State.setDirty_stack (b : Bool) : (s.setDirty b).stack = s.stack := rfl
@[simp] theorem State.setDirty_sp (b : Bool) : (s.setDirty b).sp = s.sp := rfl
@[simp] theorem State.setDirty_dt (b : Bool) : (s.setDirty b).dt = s.dt := rfl
@[simp] theorem State.setDirty_st (b : Bool) : (s.setDirty b).st = s.st := rfl
@[simp] theorem State.setDirty_key (b : Bool) : (s.setDirty b).key = s.key := rfl
@[simp] theorem State.setDirty_disp (b : Bool) : (s.setDirty b).disp = s.disp := rfl
@[simp] theorem State.setDirty_dirty (b : Bool) : (s.setDirty b).dirty = b := rfl
@[simp] theorem State.setDirty_mem (b : Bool) : (s.setDirty b).mem = s.mem := rfl
@[simp] theorem State.setDirty_rndPos (b : Bool) : (s.setDirty b).rndPos = s.rndPos := rfl

/-! ### setMem -/

@[simp] theorem State.setMem_v (m : Memory) : (s.setMem m).v = s.v := rfl
@[simp] theorem State.setMem_i (m : Memory) : (s.setMem m).i = s.i := rfl
@[simp] theorem State.setMem_pc (m : Memory) : (s.setMem m).pc = s.pc := rfl
@[simp] theorem State.setMem_stack (m : Memory) : (s.setMem m).stack = s.stack := rfl
@[simp] theorem State.setMem_sp (m : Memory) : (s.setMem m).sp = s.sp := rfl
@[simp] theorem State.setMem_dt (m : Memory) : (s.setMem m).dt = s.dt := rfl
@[simp] theorem State.setMem_st (m : Memory) : (s.setMem m).st = s.st := rfl
@[simp] theorem State.setMem_key (m : Memory) : (s.setMem m).key = s.key := rfl
@[simp] theorem State.setMem_disp (m : Memory) : (s.setMem m).disp = s.disp := rfl
@[simp] theorem State.setMem_dirty (m : Memory) : (s.setMem m).dirty = s.dirty := rfl
@[simp] theorem State.setMem_mem (m : Memory) : (s.setMem m).mem = m := rfl
@[simp] theorem State.setMem_rndPos (m : Memory) : (s.setMem m).rndPos = s.rndPos := rfl

/-! ### setRndPos -/

@[simp] theorem State.setRndPos_v (n : Nat) : (s.setRndPos n).v = s.v := rfl
@[simp] theorem State.setRndPos_i (n : Nat) : (s.setRndPos n).i = s.i := rfl
@[simp] theorem State.setRndPos_pc (n : Nat) : (s.setRndPos n).pc = s.pc := rfl
@[simp] theorem State.setRndPos_stack (n : Nat) : (s.setRndPos n).stack = s.stack := rfl
@[simp] theorem State.setRndPos_sp (n : Nat) : (s.setRndPos n).sp = s.sp := rfl
@[simp] theorem State.setRndPos_dt (n : Nat) : (s.setRndPos n).dt = s.dt := rfl
@[simp] theorem State.setRndPos_st (n : Nat) : (s.setRndPos n).st = s.st := rfl
@[simp] theorem State.setRndPos_key (n : Nat) : (s.setRndPos n).key = s.key := rfl
@[simp] theorem State.setRndPos_disp (n : Nat) : (s.setRndPos n).disp = s.disp := rfl
@[simp] theorem State.setRndPos_dirty (n : Nat) : (s.setRndPos n).dirty = s.dirty := rfl
@[simp] theorem State.setRndPos_mem (n : Nat) : (s.setRndPos n).mem = s.mem := rfl
@[simp] theorem State.setRndPos_rndPos (n : Nat) : (s.setRndPos n).rndPos = n := rfl

/-! ### setFlag -/

@[simp] theorem State.setFlag_v (f : Bool) : (s.setFlag f).v = s.v.set vf (flagByte f) := rfl
@[simp] theorem State.setFlag_i (f : Bool) : (s.setFlag f).i = s.i := rfl
@[simp] theorem State.setFlag_pc (f : Bool) : (s.setFlag f).pc = s.pc := rfl
@[simp] theorem State.setFlag_stack (f : Bool) : (s.setFlag f).stack = s.stack := rfl
@[simp] theorem State.setFlag_sp (f : Bool) : (s.setFlag f).sp = s.sp := rfl
@[simp] theorem State.setFlag_dt (f : Bool) : (s.setFlag f).dt = s.dt := rfl
@[simp] theorem State.setFlag_st (f : Bool) : (s.setFlag f).st = s.st := rfl
@[simp] theorem State.setFlag_key (f : Bool) : (s.setFlag f).key = s.key := rfl
@[simp] theorem State.setFlag_disp (f : Bool) : (s.setFlag f).disp = s.disp := rfl
@[simp] theorem State.setFlag_dirty (f : Bool) : (s.setFlag f).dirty = s.dirty := rfl
@[simp] theorem State.setFlag_mem (f : Bool) : (s.setFlag f).mem = s.mem := rfl
@[simp] theorem State.setFlag_rndPos (f : Bool) : (s.setFlag f).rndPos = s.rndPos := rfl

/-! ### setResultFlag -/

@[simp] theorem State.setResultFlag_v (x : Reg) (r : Byte) (f : Bool) : (s.setResultFlag x r f).v = (s.v.set x r).set vf (flagByte f) := rfl
@[simp] theorem State.setResultFlag_i (x : Reg) (r : Byte) (f : Bool) : (s.setResultFlag x r f).i = s.i := rfl
@[simp] theorem State.setResultFlag_pc (x : Reg) (r : Byte) (f : Bool) : (s.setResultFlag x r f).pc = s.pc := rfl
@[simp] theorem State.setResultFlag_stack (x : Reg) (r : Byte) (f : Bool) : (s.setResultFlag x r f).stack = s.stack := rfl
@[simp] theorem State.setResultFlag_sp (x : Reg) (r : Byte) (f : Bool) : (s.setResultFlag x r f).sp = s.sp := rfl
@[simp] theorem State.setResultFlag_dt (x : Reg) (r : Byte) (f : Bool) : (s.setResultFlag x r f).dt = s.dt := rfl
@[simp] theorem State.setResultFlag_st (x : Reg) (r : Byte) (f : Bool) : (s.setResultFlag x r f).st = s.st := rfl
@[simp] theorem State.setResultFlag_key (x : Reg) (r : Byte) (f : Bool) : (s.setResultFlag x r f).key = s.key := rfl
@[simp] theorem State.setResultFlag_disp (x : Reg) (r : Byte) (f : Bool) : (s.setResultFlag x r f).disp = s.disp := rfl
@[simp] theorem State.setResultFlag_dirty (x : Reg) (r : Byte) (f : Bool) : (s.setResultFlag x r f).dirty = s.dirty := rfl
@[simp] theorem State.setResultFlag_mem (x : Reg) (r : Byte) (f : Bool) : (s.setResultFlag x r f).mem = s.mem := rfl
@[simp] theorem State.setResultFlag_rndPos (x : Reg) (r : Byte) (f : Bool) : (s.setResultFlag x r f).rndPos = s.rndPos := rfl

/-! ### setCanvas -/

@[simp] theorem State.setCanvas_v (c : Canvas) : (s.setCanvas c).v = s.v.set vf (flagByte c.2) := rfl
@[simp] theorem State.setCanvas_i (c : Canvas) : (s.setCanvas c).i = s.i := rfl
@[simp] theorem State.setCanvas_pc (c : Canvas) : (s.setCanvas c).pc = s.pc := rfl
@[simp] theorem State.setCanvas_stack (c : Canvas) : (s.setCanvas c).stack = s.stack := rfl
@[simp] theorem State.setCanvas_sp (c : Canvas) : (s.setCanvas c).sp = s.sp := rfl
@[simp] theorem State.setCanvas_dt (c : Canvas) : (s.setCanvas c).dt = s.dt := rfl
@[simp] theorem State.setCanvas_st (c : Canvas) : (s.setCanvas c).st = s.st := rfl
@[simp] theorem State.setCanvas_key (c : Canvas) : (s.setCanvas c).key = s.key := rfl
@[simp] theorem State.setCanvas_disp (c : Canvas) : (s.setCanvas c).disp = c.1 := rfl
@[simp] theorem State.setCanvas_dirty (c : Canvas) : (s.setCanvas c).dirty = true := rfl
@[simp] theorem State.setCanvas_mem (c : Canvas) : (s.setCanvas c).mem = s.mem := rfl
@[simp] theorem State.setCanvas_rndPos (c : Canvas) : (s.setCanvas c).rndPos = s.rndPos := rfl

/-! ### Registers -/

@[simp] theorem State.reg_eq (x : Reg) : s.reg x = s.v[x] := rfl

/-- A register after a write of a register: the one written holds the value, the others stay. -/
theorem regs_set (v : Vector Byte 16) (x k : Reg) (b : Byte) :
    (v.set x b)[k] = if k = x then b else v[k] := by
  rcases eq_or_ne k x with rfl | h
  · simp
  · simpa [h] using Vector.getElem_set_ne x.isLt k.isLt (fun e => h (Fin.ext e.symm))

/-- Both writes of a flag-writing instruction, read at a register: the flag stands at VF (R154). -/
theorem regs_set_result_flag (v : Vector Byte 16) (x k : Reg) (r f : Byte) :
    ((v.set x r).set vf f)[k] = if k = vf then f else if k = x then r else v[k] := by
  rw [regs_set, regs_set]

/-! ### Skips: every field but pc stays -/

theorem skipIf_pc (c : Bool) : (skipIf c s).pc = if c then s.pc + 4 else s.pc + 2 := by
  cases c <;> rfl

@[simp] theorem skipIf_v (c : Bool) : (skipIf c s).v = s.v := by cases c <;> rfl
@[simp] theorem skipIf_i (c : Bool) : (skipIf c s).i = s.i := by cases c <;> rfl
@[simp] theorem skipIf_stack (c : Bool) : (skipIf c s).stack = s.stack := by cases c <;> rfl
@[simp] theorem skipIf_sp (c : Bool) : (skipIf c s).sp = s.sp := by cases c <;> rfl
@[simp] theorem skipIf_dt (c : Bool) : (skipIf c s).dt = s.dt := by cases c <;> rfl
@[simp] theorem skipIf_st (c : Bool) : (skipIf c s).st = s.st := by cases c <;> rfl
@[simp] theorem skipIf_key (c : Bool) : (skipIf c s).key = s.key := by cases c <;> rfl
@[simp] theorem skipIf_disp (c : Bool) : (skipIf c s).disp = s.disp := by cases c <;> rfl
@[simp] theorem skipIf_dirty (c : Bool) : (skipIf c s).dirty = s.dirty := by cases c <;> rfl
@[simp] theorem skipIf_mem (c : Bool) : (skipIf c s).mem = s.mem := by cases c <;> rfl
@[simp] theorem skipIf_rndPos (c : Bool) : (skipIf c s).rndPos = s.rndPos := by cases c <;> rfl

end Sys2Proof.Machine
end

