-- ==== Sys2Proof/Laws/Ops.lean ====
section
/-! SUPPORT. One lemma per shared operation that says everything it can do: the bounds checks, the push
and the pop, the fetch, the block of registers. -/

namespace Sys2Proof.Machine

/-! ### Accesses and keys -/

/-- An access whose every byte exists goes on. -/
theorem withAccess_ok {base len : Nat} (go : Outcome) (h : len = 0 ∨ base + len ≤ memSize) :
    withAccess base len go = go := if_pos h

/-- An access that passes 0xFFF raises BoundsError with its first address above 0xFFF. -/
theorem withAccess_fault {base len : Nat} (go : Outcome) (h0 : len ≠ 0) (h : memSize < base + len) :
    withAccess base len go = .fault (.boundsAddr (max base memSize)) :=
  if_neg (by omega)

/-- A next state of a checked access is a next state of what follows the check, and the check held. -/
theorem withAccess_next {base len : Nat} {go : Outcome} {t : State}
    (h : withAccess base len go = .next t) : (len = 0 ∨ base + len ≤ memSize) ∧ go = .next t := by
  unfold withAccess raise at h
  split at h
  · next hc => exact ⟨hc, h⟩
  · cases h

theorem withKey_ok (k : Byte) (go : Fin 16 → Outcome) (h : k.toNat < 16) :
    withKey k go = go ⟨k.toNat, h⟩ := dif_pos h

theorem withKey_fault (k : Byte) (go : Fin 16 → Outcome) (h : ¬ k.toNat < 16) :
    withKey k go = .fault (.boundsKey k) := dif_neg h

theorem withKey_next {k : Byte} {go : Fin 16 → Outcome} {t : State} (h : withKey k go = .next t) :
    ∃ hk : k.toNat < 16, go ⟨k.toNat, hk⟩ = .next t := by
  unfold withKey raise at h
  split at h
  · next hk => exact ⟨hk, h⟩
  · cases h

/-! ### The call stack -/

theorem withPush_ok (s : State) (w : Word) (go : State → Outcome) (h : s.sp.val < 16) :
    withPush s w go = go (s.setStack (s.stack.set s.sp.val w h) ⟨s.sp.val + 1, by omega⟩) := dif_pos h

theorem withPush_fault (s : State) (w : Word) (go : State → Outcome) (h : ¬ s.sp.val < 16) :
    withPush s w go = .fault .stackOverflow := dif_neg h

theorem withPush_next {s : State} {w : Word} {go : State → Outcome} {t : State}
    (h : withPush s w go = .next t) :
    ∃ hs : s.sp.val < 16,
      go (s.setStack (s.stack.set s.sp.val w hs) ⟨s.sp.val + 1, by omega⟩) = .next t := by
  unfold withPush raise at h
  split at h
  · next hs => exact ⟨hs, h⟩
  · cases h

theorem withPop_ok (s : State) (go : Word → State → Outcome) (h : 0 < s.sp.val) :
    withPop s go = go (s.stack[s.sp.val - 1]'(by omega))
      (s.setStack s.stack ⟨s.sp.val - 1, by omega⟩) := dif_pos h

theorem withPop_fault (s : State) (go : Word → State → Outcome) (h : ¬ 0 < s.sp.val) :
    withPop s go = .fault .stackUnderflow := dif_neg h

theorem withPop_next {s : State} {go : Word → State → Outcome} {t : State}
    (h : withPop s go = .next t) :
    ∃ hs : 0 < s.sp.val, go (s.stack[s.sp.val - 1]'(by omega))
      (s.setStack s.stack ⟨s.sp.val - 1, by omega⟩) = .next t := by
  unfold withPop raise at h
  split at h
  · next hs => exact ⟨hs, h⟩
  · cases h

/-! ### The block of registers -/

theorem regBlock_length (s : State) (x : Reg) : (s.regBlock x).length = blockLen x := by
  have := x.isLt
  simp [State.regBlock, blockLen]

theorem regBlock_get (s : State) (x k : Reg) (h : k.val ≤ x.val) :
    (s.regBlock x)[k.val]'(by rw [regBlock_length]; exact Nat.lt_succ_of_le h) = s.v[k] := by
  simp [State.regBlock]

/-- The registers after a block load: the first n from memory, the others as they were (R187). -/
theorem loadRegs_get (m : Memory) (a n : Nat) (v : Vector Byte 16) (k : Reg) :
    (loadRegs m a n v)[k] = if k.val < n then m.read (a + k.val) else v[k] := by
  induction n with
  | zero => simp [loadRegs]
  | succ n ih =>
    rw [loadRegs]
    rcases eq_or_ne n k.val with h | h
    · subst h
      simp
    · simp only [Fin.getElem_fin] at *
      rw [Vector.getElem_setIfInBounds_ne k.isLt h, ih]
      split <;> split <;> first | rfl | omega

theorem bcdDigits_length (b : Byte) : (bcdDigits b).length = 3 := rfl

/-! ### The fetch -/

theorem withFetched_next {s t : State} {go : Instr → Outcome} (h : withFetched s go = .next t) :
    s.pc.toNat + 2 ≤ memSize ∧ ∃ i, decode (s.mem.readWord s.pc.toNat) = .ok i ∧ go i = .next t := by
  obtain ⟨hb, h⟩ := withAccess_next h
  refine ⟨by omega, ?_⟩
  split at h
  · next i hi => exact ⟨i, hi, h⟩
  · cases h

theorem withFetched_ok {s : State} {go : Instr → Outcome} {i : Instr}
    (hp : s.pc.toNat + 2 ≤ memSize) (hi : decode (s.mem.readWord s.pc.toNat) = .ok i) :
    withFetched s go = go i := by
  rw [withFetched, withAccess_ok _ (Or.inr hp), hi]

end Sys2Proof.Machine
end

