-- ==== Sys2Proof/Laws/Step.lean ====
section
/-! SUPPORT. What a Step can do, said once: it runs the instruction fetched at pc. -/

namespace Sys2Proof.Machine

/-- A Step that answers a next state fetched at a pc of at most 0xFFE, decoded the word there and ran the
instruction. -/
theorem step_next {s t : State} (h : step s = .next t) :
    s.pc.toNat + 2 ≤ memSize ∧
      ∃ i, decode (s.mem.readWord s.pc.toNat) = .ok i ∧ exec i s = .next t :=
  withFetched_next h

/-- The word stored where the next Step fetches is the word it fetches. -/
theorem readWord_storeAtPc (s : State) (w : Word) (h : s.pc.toNat + 2 ≤ memSize) :
    (storeAtPc s w).mem.readWord (storeAtPc s w).pc.toNat = w := by
  have e : storeAtPc s w = s.setMem (s.mem.writeBytes s.pc.toNat [wordHigh w, wordLow w]) := by
    simp only [storeAtPc, if_pos h]
  rw [e]
  simp only [State.setMem_mem, State.setMem_pc, Memory.readWord, Memory.writeBytes]
  rw [read_write_same, read_write_other _ _ (by omega), read_write_same]
  have : wordOfBytes (wordHigh w) (wordLow w) = w := by
    apply BitVec.eq_of_getLsbD_eq
    intro i hi
    simp only [wordOfBytes, wordHigh, wordLow, BitVec.getLsbD_append, BitVec.getLsbD_extractLsb']
    by_cases hi8 : i < 8
    · simp [hi8]
    · simp [hi8, show i - 8 < 8 by omega, show 8 + (i - 8) = i by omega]
  exact this

end Sys2Proof.Machine
end

