-- ==== Sys2Proof/Laws/Block.lean ====
section
/-! SUPPORT. What the host's Step and load can do, said once, and the induction over a run. -/

namespace Sys2Proof.Machine

/-- The Step operation goes on, returns an error with the state kept, or has no move. -/
theorem block_step_cases (b : Block) :
    (∃ t, step b.state = .next t ∧ b.step = (.ok, { state := t, phase := .started })) ∨
    (∃ f, step b.state = .fault f ∧ b.step = (.error f, { state := b.state, phase := .started })) ∨
    ∃ r, step b.state = .refused r ∧ b.step = (.refused r, b) := by
  cases h : step b.state with
  | next t => exact .inl ⟨t, rfl, by rw [Block.step, h]⟩
  | fault f => exact .inr (.inl ⟨f, rfl, by rw [Block.step, h]⟩)
  | refused r => exact .inr (.inr ⟨r, rfl, by rw [Block.step, h]⟩)

/-- The load operation places the bytes in a block as constructed, finds them too many, or is refused. -/
theorem block_load_cases (bytes : List Byte) (b : Block) :
    (b.phase = .constructed ∧ b.state = State.reset ∧ bytes.length ≤ memSize - loadAddr ∧
      b.load bytes = (.ok, { state := b.state.setMem (b.state.mem.writeBytes loadAddr bytes), phase := .started })) ∨
    (memSize - loadAddr < bytes.length ∧ b.load bytes = (.loadError .tooLarge, b)) ∨
    (¬ (b.phase = .constructed ∧ b.state = State.reset) ∧ b.load bytes = (.refused .loadNotAdmitted, b)) := by
  by_cases hb : b.phase = .constructed ∧ b.state = State.reset
  · by_cases hl : memSize - loadAddr < bytes.length
    · exact .inr (.inl ⟨hl, by rw [Block.load, if_pos hb, loadProgram, if_pos hl]⟩)
    · exact .inl ⟨hb.1, hb.2, by omega, by rw [Block.load, if_pos hb, loadProgram, if_neg hl]⟩
  · exact .inr (.inr ⟨hb, by rw [Block.load, if_neg hb]⟩)

/-- What every operation keeps, every run keeps. -/
theorem run_keeps {P : Block → Prop} (hP : ∀ (op : HostOp) (b : Block), P b → P (b.apply op).2)
    (ops : List HostOp) : ∀ b : Block, P b → P (Block.run ops b).2 := by
  induction ops with
  | nil => exact fun _ h => h
  | cons op ops ih =>
    intro b h
    rw [Block.run]
    split
    · exact hP op b h
    · exact ih _ (hP op b h)

/-- The Step boundaries of the first m operations are the first boundaries of all of them. -/
theorem boundaryState_take (ops : List HostOp) {m k : Nat} (h : k ≤ m) :
    boundaryState (ops.take m) k = boundaryState ops k := by
  rw [boundaryState, boundaryState, List.take_take, Nat.min_eq_left h]

/-- No block as constructed is at a halt: its memory holds no instruction at the entry point. -/
theorem reset_not_atHalt (h : Addr12) : ¬ AtHalt h State.reset := by
  rintro ⟨hp, -, hw⟩
  have e : h = 0x200 := by
    have e' := congrArg BitVec.toNat hp
    rw [immAddr, BitVec.toNat_setWidth, Nat.mod_eq_of_lt (by omega)] at e'
    exact BitVec.eq_of_toNat_eq e'.symm
  subst e
  exact absurd hw (by decide)

end Sys2Proof.Machine
end

