-- ==== Sys2Proof/Laws/Decode.lean ====
section
/-! SUPPORT. The fields of a word built from its formats (30_encoding.md R81, R82), the bits that the
opcode table's masks keep of it, and the two bytes of a word. -/

namespace Sys2Proof

/-! ### The fields of each format -/

theorem fieldF_encodeA (f : BitVec 4) (nnn : Addr12) : fieldF (encodeA f nnn) = f := by
  unfold fieldF encodeA
  exact BitVec.extractLsb'_append_eq_left

theorem fieldNNN_encodeA (f : BitVec 4) (nnn : Addr12) : fieldNNN (encodeA f nnn) = nnn := by
  unfold fieldNNN encodeA
  exact BitVec.extractLsb'_append_eq_right

theorem fieldF_encodeXK (f : BitVec 4) (x : Reg) (kk : Byte) : fieldF (encodeXK f x kk) = f := by
  apply BitVec.eq_of_getLsbD_eq
  intro i hi
  simp only [fieldF, encodeXK, BitVec.getLsbD_extractLsb', BitVec.getLsbD_append]
  have h1 : ¬ (12 + i < 8) := by omega
  have h2 : ¬ (12 + i - 8 < 4) := by omega
  simp [hi, h1, h2, show 12 + i - 8 - 4 = i by omega]

theorem fieldX_encodeXK (f : BitVec 4) (x : Reg) (kk : Byte) : fieldX (encodeXK f x kk) = x := by
  have h : (encodeXK f x kk).extractLsb' 8 4 = regBits x := by
    apply BitVec.eq_of_getLsbD_eq
    intro i hi
    simp only [encodeXK, BitVec.getLsbD_extractLsb', BitVec.getLsbD_append]
    have h1 : ¬ (8 + i < 8) := by omega
    simp [hi, h1]
  rw [fieldX, h]
  rfl

theorem fieldNN_encodeXK (f : BitVec 4) (x : Reg) (kk : Byte) : fieldNN (encodeXK f x kk) = kk := by
  unfold fieldNN encodeXK
  exact BitVec.extractLsb'_append_eq_right

theorem fieldF_encodeXY (f : BitVec 4) (x y : Reg) (n : BitVec 4) : fieldF (encodeXY f x y n) = f := by
  apply BitVec.eq_of_getLsbD_eq
  intro i hi
  simp only [fieldF, encodeXY, BitVec.getLsbD_extractLsb', BitVec.getLsbD_append]
  have h1 : ¬ (12 + i < 4) := by omega
  have h2 : ¬ (12 + i - 4 < 4) := by omega
  have h3 : ¬ (12 + i - 4 - 4 < 4) := by omega
  simp [hi, h1, h2, h3, show 12 + i - 4 - 4 - 4 = i by omega]

theorem fieldX_encodeXY (f : BitVec 4) (x y : Reg) (n : BitVec 4) : fieldX (encodeXY f x y n) = x := by
  have h : (encodeXY f x y n).extractLsb' 8 4 = regBits x := by
    apply BitVec.eq_of_getLsbD_eq
    intro i hi
    simp only [encodeXY, BitVec.getLsbD_extractLsb', BitVec.getLsbD_append]
    have h1 : ¬ (8 + i < 4) := by omega
    have h2 : ¬ (8 + i - 4 < 4) := by omega
    simp [hi, h1, h2, show 8 + i - 4 - 4 = i by omega]
  rw [fieldX, h]
  rfl

theorem fieldY_encodeXY (f : BitVec 4) (x y : Reg) (n : BitVec 4) : fieldY (encodeXY f x y n) = y := by
  have h : (encodeXY f x y n).extractLsb' 4 4 = regBits y := by
    apply BitVec.eq_of_getLsbD_eq
    intro i hi
    simp only [encodeXY, BitVec.getLsbD_extractLsb', BitVec.getLsbD_append]
    have h1 : ¬ (4 + i < 4) := by omega
    simp [hi, h1]
  rw [fieldY, h]
  rfl

theorem fieldN_encodeXY (f : BitVec 4) (x y : Reg) (n : BitVec 4) : fieldN (encodeXY f x y n) = n := by
  unfold fieldN encodeXY
  exact BitVec.extractLsb'_append_eq_right

/-! ### What the masks of the opcode table keep -/

theorem encodeA_mask (f : BitVec 4) (nnn : Addr12) : encodeA f nnn &&& 0xF000 = f ++ (0 : BitVec 12) := by
  apply BitVec.eq_of_getLsbD_eq
  intro i hi
  simp only [encodeA, BitVec.getLsbD_and, BitVec.getLsbD_append]
  interval_cases i <;> simp

theorem encodeXK_mask_family (f : BitVec 4) (x : Reg) (kk : Byte) :
    encodeXK f x kk &&& 0xF000 = f ++ (0 : BitVec 12) := by
  apply BitVec.eq_of_getLsbD_eq
  intro i hi
  simp only [encodeXK, BitVec.getLsbD_and, BitVec.getLsbD_append]
  interval_cases i <;> simp

theorem encodeXK_mask_sub (f : BitVec 4) (x : Reg) (kk : Byte) :
    encodeXK f x kk &&& 0xF0FF = f ++ (0 : BitVec 4) ++ kk := by
  apply BitVec.eq_of_getLsbD_eq
  intro i hi
  simp only [encodeXK, BitVec.getLsbD_and, BitVec.getLsbD_append]
  interval_cases i <;> simp

theorem encodeXY_mask_family (f : BitVec 4) (x y : Reg) (n : BitVec 4) :
    encodeXY f x y n &&& 0xF000 = f ++ (0 : BitVec 12) := by
  apply BitVec.eq_of_getLsbD_eq
  intro i hi
  simp only [encodeXY, BitVec.getLsbD_and, BitVec.getLsbD_append]
  interval_cases i <;> simp

theorem encodeXY_mask_sub (f : BitVec 4) (x y : Reg) (n : BitVec 4) :
    encodeXY f x y n &&& 0xF00F = f ++ (0 : BitVec 8) ++ n := by
  apply BitVec.eq_of_getLsbD_eq
  intro i hi
  simp only [encodeXY, BitVec.getLsbD_and, BitVec.getLsbD_append]
  interval_cases i <;> simp

/-! ### Every word is made of its fields -/

theorem encodeA_fields (w : Word) : encodeA (fieldF w) (fieldNNN w) = w := by
  apply BitVec.eq_of_getLsbD_eq
  intro i hi
  simp only [encodeA, fieldF, fieldNNN, BitVec.getLsbD_append, BitVec.getLsbD_extractLsb']
  by_cases h : i < 12
  · simp [h]
  · simp [h, show i - 12 < 4 by omega, show 12 + (i - 12) = i by omega]

theorem encodeXK_fields (w : Word) : encodeXK (fieldF w) (fieldX w) (fieldNN w) = w := by
  have hx : regBits (fieldX w) = w.extractLsb' 8 4 := rfl
  apply BitVec.eq_of_getLsbD_eq
  intro i hi
  simp only [encodeXK, hx, fieldF, fieldNN, BitVec.getLsbD_append, BitVec.getLsbD_extractLsb']
  by_cases h : i < 8
  · simp [h]
  · by_cases h' : i - 8 < 4
    · simp [h, h', show 8 + (i - 8) = i by omega]
    · simp [h, h', show i - 8 - 4 < 4 by omega, show 12 + (i - 8 - 4) = i by omega]

theorem encodeXY_fields (w : Word) : encodeXY (fieldF w) (fieldX w) (fieldY w) (fieldN w) = w := by
  have hx : regBits (fieldX w) = w.extractLsb' 8 4 := rfl
  have hy : regBits (fieldY w) = w.extractLsb' 4 4 := rfl
  apply BitVec.eq_of_getLsbD_eq
  intro i hi
  simp only [encodeXY, hx, hy, fieldF, fieldN, BitVec.getLsbD_append, BitVec.getLsbD_extractLsb']
  by_cases h : i < 4
  · simp [h]
  · by_cases h' : i - 4 < 4
    · simp [h, h', show 4 + (i - 4) = i by omega]
    · by_cases h'' : i - 4 - 4 < 4
      · simp [h, h', h'', show 8 + (i - 4 - 4) = i by omega]
      · simp [h, h', h'', show i - 4 - 4 - 4 < 4 by omega, show 12 + (i - 4 - 4 - 4) = i by omega]

/-! ### What a refusal is -/

/-- The only refusal of a word is UnknownOpcode with the raw word (R85). -/
theorem decode_error {w : Word} {e : DecodeError} (h : decode w = .error e) :
    e = .unknownOpcode w := by
  unfold decode at h
  split at h
  case h_1 => unfold decodeFamily0 at h; repeat' split at h
              all_goals cases h; try rfl
  case h_9 => unfold decodeFamily8 at h; repeat' split at h
              all_goals cases h; try rfl
  case h_15 => unfold decodeFamilyE at h; repeat' split at h
               all_goals cases h; try rfl
  case h_16 => unfold decodeFamilyF at h; repeat' split at h
               all_goals cases h; try rfl
  case h_6 => split at h <;> cases h; rfl
  case h_10 => split at h <;> cases h; rfl
  all_goals cases h

/-! ### Bytes -/

/-- A word's two bytes, put together again, are the word. -/
theorem wordOfBytes_high_low (w : Word) : wordOfBytes (wordHigh w) (wordLow w) = w := by
  apply BitVec.eq_of_getLsbD_eq
  intro i hi
  simp only [wordOfBytes, wordHigh, wordLow, BitVec.getLsbD_append, BitVec.getLsbD_extractLsb']
  by_cases h : i < 8
  · simp [h]
  · simp [h, show i - 8 < 8 by omega, show 8 + (i - 8) = i by omega]

/-- Reading bytes is decoding the word they make. -/
theorem decodeBytes_word (w : Word) (rest : List Byte) :
    decodeBytes (wordHigh w :: wordLow w :: rest) =
      match decode w with
      | .ok i => .ok (i, rest)
      | .error e => .error e :=
  congrArg (fun v => match decode v with
    | .ok i => Except.ok (i, rest)
    | .error e => Except.error e) (wordOfBytes_high_low w)

end Sys2Proof
end

