-- ==== Sys2Proof/Laws/Display.lean ====
section
/-! SUPPORT. The rasterizer as a whole (44_display.md R208): a drawing inverts the pixels of its mask, and
reports a collision exactly when one of them was set. -/

namespace Sys2Proof.Machine

/-- The pixels after one inversion. -/
theorem pixel_flip (d : Display) (px qx : Fin 64) (py qy : Fin 32) :
    (d.flip px py).pixel qx qy = (d.pixel qx qy ^^ (qx == px && qy == py)) := by
  have hx : (qx == px) = decide (px.val = qx.val) := by
    rw [Bool.eq_iff_iff, beq_iff_eq, decide_eq_true_eq, Fin.ext_iff]; exact eq_comm
  have hy : (qy == py) = decide (py.val = qy.val) := by
    rw [Bool.eq_iff_iff, beq_iff_eq, decide_eq_true_eq, Fin.ext_iff]; exact eq_comm
  simp only [Display.flip, Display.pixel, Fin.getElem_fin, Vector.getElem_set, hx, hy]
  by_cases h : px.val = qx.val
  · by_cases h' : py.val = qy.val
    · simp [h, h']
    · simp [h, h']
  · simp [h]

/-- The drawing inverts exactly the pixels of the mask, and turns the collision flag on exactly when one
of them was set. -/
def Draws (f : Canvas → Canvas) (mask : Fin 64 → Fin 32 → Bool) : Prop :=
  ∀ c : Canvas,
    (∀ x y, Display.pixel (f c).1 x y = (Display.pixel c.1 x y ^^ mask x y)) ∧
    ((f c).2 = true ↔ c.2 = true ∨ ∃ x y, mask x y = true ∧ Display.pixel c.1 x y = true)

theorem draws_id : Draws id fun _ _ => false := by
  intro c
  simp

/-- Two drawings with no pixel in common, one after the other, draw both masks. -/
theorem Draws.comp {f g : Canvas → Canvas} {m n : Fin 64 → Fin 32 → Bool} (hf : Draws f m)
    (hg : Draws g n) (hd : ∀ x y, m x y = true → n x y = true → False) :
    Draws (fun c => g (f c)) fun x y => m x y || n x y := by
  intro c
  obtain ⟨hp, hc⟩ := hf c
  obtain ⟨hp', hc'⟩ := hg (f c)
  constructor
  · intro x y
    have h := hd x y
    rw [hp', hp]
    show _ = (_ ^^ (m x y || n x y))
    generalize m x y = a at h
    generalize n x y = b at h
    cases a <;> cases b <;> simp_all
  · rw [hc', hc]
    constructor
    · rintro ((h | ⟨x, y, hm, h⟩) | ⟨x, y, hn, h⟩)
      · exact .inl h
      · exact .inr ⟨x, y, by simp [hm], h⟩
      · have hm : m x y = false := by
          cases e : m x y
          · rfl
          · exact (hd x y e hn).elim
        rw [hp, hm] at h
        exact .inr ⟨x, y, by simp [hn], by simpa using h⟩
    · rintro (h | ⟨x, y, hm, h⟩)
      · exact .inl (.inl h)
      · cases e : m x y
        · change (m x y || n x y) = true at hm
          rw [e, Bool.false_or] at hm
          exact .inr ⟨x, y, hm, by rw [hp, e]; simpa using h⟩
        · exact .inl (.inr ⟨x, y, e, h⟩)

theorem drawPixel_draws (px : Fin 64) (py : Fin 32) (bit : Bool) :
    Draws (drawPixel px py bit) fun x y => x == px && y == py && bit := by
  intro c
  cases bit
  · simp [drawPixel]
  · refine ⟨fun x y => by simp [drawPixel, pixel_flip], ?_⟩
    simp [drawPixel]

/-- The pixels of the first n offsets of one sprite row. -/
def rowMask (row x0 : Byte) (py : Fin 32) (n : Nat) (x : Fin 64) (y : Fin 32) : Bool :=
  (List.range n).any fun i => x == spriteColumn x0 i && y == py && spriteBit row i

theorem rowMask_succ (row x0 : Byte) (py : Fin 32) (n : Nat) (x : Fin 64) (y : Fin 32) :
    rowMask row x0 py (n + 1) x y =
      (rowMask row x0 py n x y || (x == spriteColumn x0 n && y == py && spriteBit row n)) := by
  simp [rowMask, List.range_succ]

theorem drawRow_draws (row x0 : Byte) (py : Fin 32) (n : Nat) (hn : n ≤ 64) :
    Draws (drawRow row x0 py n) (rowMask row x0 py n) := by
  induction n with
  | zero => exact draws_id
  | succ n ih =>
    have h := (ih (by omega)).comp (drawPixel_draws (spriteColumn x0 n) py (spriteBit row n)) ?_
    · have e : (fun x y => rowMask row x0 py n x y ||
          (x == spriteColumn x0 n && y == py && spriteBit row n)) = rowMask row x0 py (n + 1) := by
        funext x y
        exact (rowMask_succ row x0 py n x y).symm
      rw [← e]
      exact h
    · intro x y h1 h2
      simp only [rowMask, List.any_eq_true, List.mem_range, Bool.and_eq_true, beq_iff_eq] at h1 h2
      obtain ⟨i, hi, ⟨hx, -⟩, -⟩ := h1
      have hx' := hx.symm.trans h2.1.1
      simp only [spriteColumn, Fin.ofNat, Fin.mk.injEq] at hx'
      omega

/-- The pixels of the first n rows of a sprite, row by row. -/
def rowsMask (m : Memory) (a : Nat) (x0 y0 : Byte) (n : Nat) (x : Fin 64) (y : Fin 32) : Bool :=
  (List.range n).any fun j => rowMask (m.read (a + j)) x0 (spriteRow y0 j) 8 x y

theorem rowsMask_succ (m : Memory) (a : Nat) (x0 y0 : Byte) (n : Nat) (x : Fin 64) (y : Fin 32) :
    rowsMask m a x0 y0 (n + 1) x y =
      (rowsMask m a x0 y0 n x y || rowMask (m.read (a + n)) x0 (spriteRow y0 n) 8 x y) := by
  simp [rowsMask, List.range_succ]

theorem rowMask_row {row x0 : Byte} {py y : Fin 32} {n : Nat} {x : Fin 64}
    (h : rowMask row x0 py n x y = true) : y = py := by
  simp only [rowMask, List.any_eq_true, Bool.and_eq_true, beq_iff_eq] at h
  obtain ⟨i, -, ⟨-, hy⟩, -⟩ := h
  exact hy

theorem drawSprite_draws_rows (m : Memory) (a : Nat) (x0 y0 : Byte) (n : Nat) (hn : n ≤ 32) :
    Draws (drawSprite m a x0 y0 n) (rowsMask m a x0 y0 n) := by
  induction n with
  | zero => exact draws_id
  | succ n ih =>
    have h := (ih (by omega)).comp
      (drawRow_draws (m.read (a + n)) x0 (spriteRow y0 n) 8 (by omega)) ?_
    · have e : (fun x y => rowsMask m a x0 y0 n x y ||
          rowMask (m.read (a + n)) x0 (spriteRow y0 n) 8 x y) = rowsMask m a x0 y0 (n + 1) := by
        funext x y
        exact (rowsMask_succ m a x0 y0 n x y).symm
      rw [← e]
      exact h
    · intro x y h1 h2
      simp only [rowsMask, List.any_eq_true, List.mem_range] at h1
      obtain ⟨j, hj, h1⟩ := h1
      have hy := (rowMask_row h1).symm.trans (rowMask_row h2)
      simp only [spriteRow, Fin.ofNat, Fin.mk.injEq] at hy
      omega

theorem rowsMask_eq_spriteMask (m : Memory) (a : Nat) (x0 y0 : Byte) (n : Nat) :
    rowsMask m a x0 y0 n = spriteMask m a x0 y0 n := by
  funext x y
  unfold rowsMask spriteMask rowMask spriteColumn spriteRow spriteBit
  congr 1
  funext j
  congr 1
  funext i
  have hx : (x == Fin.ofNat 64 (x0.toNat + i)) = ((x0.toNat + i) % 64 == x.val) := by
    rw [Bool.eq_iff_iff, beq_iff_eq, beq_iff_eq, Fin.ext_iff]; exact eq_comm
  have hy : (y == Fin.ofNat 32 (y0.toNat + j)) = ((y0.toNat + j) % 32 == y.val) := by
    rw [Bool.eq_iff_iff, beq_iff_eq, beq_iff_eq, Fin.ext_iff]; exact eq_comm
  rw [hx, hy]

/-- The sprite loop of R202 draws the mask of R208. -/
theorem drawSprite_draws (m : Memory) (a : Nat) (x0 y0 : Byte) (n : Nat) (hn : n ≤ 32) :
    Draws (drawSprite m a x0 y0 n) (spriteMask m a x0 y0 n) :=
  rowsMask_eq_spriteMask m a x0 y0 n ▸ drawSprite_draws_rows m a x0 y0 n hn

/-- Every pixel of the blank display is 0. -/
theorem pixel_blank (x : Fin 64) (y : Fin 32) : blankDisplay.pixel x y = false := by
  simp [Display.pixel, blankDisplay]

end Sys2Proof.Machine
end

