-- ==== Sys2Proof/Laws/Input.lean ====
section
/-! SUPPORT. What the key scan of R227 finds. -/

namespace Sys2Proof.Machine

/-- The scan of the first n keys finds nothing exactly when none of them is pressed. -/
theorem scanKeys_none_iff (key : Vector Bool 16) (n : Nat) (hn : n ≤ 16) :
    scanKeys key n = none ↔ ∀ k : Fin 16, k.val < n → key[k] = false := by
  induction n with
  | zero => simp [scanKeys]
  | succ n ih =>
    have hd : key.toList.getD n false = key[n]'(by omega) := by
      rw [List.getD_eq_getElem _ _ (by simp; omega)]
      simp
    rw [scanKeys, hd]
    split
    · next h =>
      simp only [reduceCtorEq, false_iff, not_forall]
      exact ⟨⟨n, by omega⟩, by simp, by simp [h]⟩
    · next h =>
      rw [ih (by omega)]
      constructor
      · intro hk k hlt
        rcases Nat.lt_succ_iff_lt_or_eq.mp hlt with hl | he
        · exact hk k hl
        · have : key[k.val] = false := by
            have h' : key[n]'(by omega) = false := by simpa using h
            simpa only [he] using h'
          exact this
      · intro hk k hlt
        exact hk k (by omega)

/-- The scan finds key k exactly when k is pressed and no higher one among the first n is. -/
theorem scanKeys_some_iff (key : Vector Bool 16) (n : Nat) (hn : n ≤ 16) (k : Fin 16) :
    scanKeys key n = some k.val ↔
      k.val < n ∧ key[k] = true ∧ ∀ j : Fin 16, k < j → j.val < n → key[j] = false := by
  induction n with
  | zero => simp [scanKeys]
  | succ n ih =>
    have hd : key.toList.getD n false = key[n]'(by omega) := by
      rw [List.getD_eq_getElem _ _ (by simp; omega)]
      simp
    rw [scanKeys, hd]
    split
    · next h =>
      rw [Option.some.injEq]
      constructor
      · intro e
        refine ⟨by omega, ?_, fun j hj hlt => absurd (Fin.lt_def.mp hj) (by omega)⟩
        have : key[k.val] = true := by simpa only [← e] using h
        exact this
      · rintro ⟨hlt, -, hj⟩
        by_contra hne
        have := hj ⟨n, by omega⟩ (Fin.lt_def.mpr (by simp; omega)) (by simp)
        simp [h] at this
    · next h =>
      rw [ih (by omega)]
      have h' : key[n]'(by omega) = false := by simpa using h
      constructor
      · rintro ⟨hlt, hk, hj⟩
        refine ⟨by omega, hk, fun j hkj hjn => ?_⟩
        rcases Nat.lt_succ_iff_lt_or_eq.mp hjn with hl | he
        · exact hj j hkj hl
        · have : key[j.val] = false := by simpa only [he] using h'
          exact this
      · rintro ⟨hlt, hk, hj⟩
        refine ⟨?_, hk, fun j hkj hjn => hj j hkj (by omega)⟩
        rcases Nat.lt_succ_iff_lt_or_eq.mp hlt with hl | he
        · exact hl
        · have : key[k.val] = false := by simpa only [he] using h'
          simp [this] at hk

/-- The scan finds only keys that exist. -/
theorem scanKeys_lt {key : Vector Bool 16} {n k : Nat} (h : scanKeys key n = some k) : k < n := by
  induction n with
  | zero => simp [scanKeys] at h
  | succ n ih =>
    rw [scanKeys] at h
    split at h
    · cases h; omega
    · have := ih h; omega

end Sys2Proof.Machine
end

