-- ==== Sys2Proof/Laws/PerInstr.lean ====
section
/-! SUPPORT. Laws made per instruction: the word of every instruction belongs to the instruction's own row
of the opcode table. -/

/-- The word that `encode` gives the instruction has the pattern of its row under the row's mask. -/
def Sys2Proof.Laws.MatchesItsRow.Statement (i : Sys2Proof.Instr) : Prop :=
  i.row.accepts (Sys2Proof.encode i) = true

namespace Sys2Proof.Laws.MatchesItsRow

open Sys2Proof

theorem cls : Statement .cls := rfl

theorem ret : Statement .ret := rfl

theorem jp (nnn : Addr12) : Statement (.jp nnn) :=
  beq_iff_eq.mpr ((encodeA_mask 0x1 nnn).trans rfl)

theorem call (nnn : Addr12) : Statement (.call nnn) :=
  beq_iff_eq.mpr ((encodeA_mask 0x2 nnn).trans rfl)

theorem seImm (x : Reg) (nn : Byte) : Statement (.seImm x nn) :=
  beq_iff_eq.mpr ((encodeXK_mask_family 0x3 x nn).trans rfl)

theorem sneImm (x : Reg) (nn : Byte) : Statement (.sneImm x nn) :=
  beq_iff_eq.mpr ((encodeXK_mask_family 0x4 x nn).trans rfl)

theorem seReg (x y : Reg) : Statement (.seReg x y) :=
  beq_iff_eq.mpr ((encodeXY_mask_sub 0x5 x y 0x0).trans rfl)

theorem ldImm (x : Reg) (nn : Byte) : Statement (.ldImm x nn) :=
  beq_iff_eq.mpr ((encodeXK_mask_family 0x6 x nn).trans rfl)

theorem addImm (x : Reg) (nn : Byte) : Statement (.addImm x nn) :=
  beq_iff_eq.mpr ((encodeXK_mask_family 0x7 x nn).trans rfl)

theorem ldReg (x y : Reg) : Statement (.ldReg x y) :=
  beq_iff_eq.mpr ((encodeXY_mask_sub 0x8 x y 0x0).trans rfl)

theorem or (x y : Reg) : Statement (.or x y) :=
  beq_iff_eq.mpr ((encodeXY_mask_sub 0x8 x y 0x1).trans rfl)

theorem and (x y : Reg) : Statement (.and x y) :=
  beq_iff_eq.mpr ((encodeXY_mask_sub 0x8 x y 0x2).trans rfl)

theorem xor (x y : Reg) : Statement (.xor x y) :=
  beq_iff_eq.mpr ((encodeXY_mask_sub 0x8 x y 0x3).trans rfl)

theorem addReg (x y : Reg) : Statement (.addReg x y) :=
  beq_iff_eq.mpr ((encodeXY_mask_sub 0x8 x y 0x4).trans rfl)

theorem sub (x y : Reg) : Statement (.sub x y) :=
  beq_iff_eq.mpr ((encodeXY_mask_sub 0x8 x y 0x5).trans rfl)

theorem shr (x : Reg) : Statement (.shr x) :=
  beq_iff_eq.mpr ((encodeXY_mask_sub 0x8 x 0 0x6).trans rfl)

theorem subn (x y : Reg) : Statement (.subn x y) :=
  beq_iff_eq.mpr ((encodeXY_mask_sub 0x8 x y 0x7).trans rfl)

theorem shl (x : Reg) : Statement (.shl x) :=
  beq_iff_eq.mpr ((encodeXY_mask_sub 0x8 x 0 0xE).trans rfl)

theorem sneReg (x y : Reg) : Statement (.sneReg x y) :=
  beq_iff_eq.mpr ((encodeXY_mask_sub 0x9 x y 0x0).trans rfl)

theorem ldI (nnn : Addr12) : Statement (.ldI nnn) :=
  beq_iff_eq.mpr ((encodeA_mask 0xA nnn).trans rfl)

theorem jpV0 (nnn : Addr12) : Statement (.jpV0 nnn) :=
  beq_iff_eq.mpr ((encodeA_mask 0xB nnn).trans rfl)

theorem rnd (x : Reg) (nn : Byte) : Statement (.rnd x nn) :=
  beq_iff_eq.mpr ((encodeXK_mask_family 0xC x nn).trans rfl)

theorem drw (x y : Reg) (n : Rows) : Statement (.drw x y n) :=
  beq_iff_eq.mpr ((encodeXY_mask_family 0xD x y (BitVec.ofFin n)).trans rfl)

theorem skp (x : Reg) : Statement (.skp x) :=
  beq_iff_eq.mpr ((encodeXK_mask_sub 0xE x 0x9E).trans rfl)

theorem sknp (x : Reg) : Statement (.sknp x) :=
  beq_iff_eq.mpr ((encodeXK_mask_sub 0xE x 0xA1).trans rfl)

theorem ldVxDT (x : Reg) : Statement (.ldVxDT x) :=
  beq_iff_eq.mpr ((encodeXK_mask_sub 0xF x 0x07).trans rfl)

theorem ldVxK (x : Reg) : Statement (.ldVxK x) :=
  beq_iff_eq.mpr ((encodeXK_mask_sub 0xF x 0x0A).trans rfl)

theorem ldDTVx (x : Reg) : Statement (.ldDTVx x) :=
  beq_iff_eq.mpr ((encodeXK_mask_sub 0xF x 0x15).trans rfl)

theorem ldSTVx (x : Reg) : Statement (.ldSTVx x) :=
  beq_iff_eq.mpr ((encodeXK_mask_sub 0xF x 0x18).trans rfl)

theorem addI (x : Reg) : Statement (.addI x) :=
  beq_iff_eq.mpr ((encodeXK_mask_sub 0xF x 0x1E).trans rfl)

theorem ldF (x : Reg) : Statement (.ldF x) :=
  beq_iff_eq.mpr ((encodeXK_mask_sub 0xF x 0x29).trans rfl)

theorem ldB (x : Reg) : Statement (.ldB x) :=
  beq_iff_eq.mpr ((encodeXK_mask_sub 0xF x 0x33).trans rfl)

theorem ldMemVx (x : Reg) : Statement (.ldMemVx x) :=
  beq_iff_eq.mpr ((encodeXK_mask_sub 0xF x 0x55).trans rfl)

theorem ldVxMem (x : Reg) : Statement (.ldVxMem x) :=
  beq_iff_eq.mpr ((encodeXK_mask_sub 0xF x 0x65).trans rfl)

end Sys2Proof.Laws.MatchesItsRow
end

