-- ==== Sys2Proof/Tests/Slice0.lean ====
section
/-! SUPPORT. The model's own tests. Expected values come from spec/95_test_vectors.md (the id of the vector
stands with the test) or by hand from the rule named; the witnesses show, for each statement with
hypotheses, that something meets them. -/

namespace Sys2Proof.Tests

open Sys2Proof Sys2Proof.Machine

/-! ## Words: the check, and the decoding of every constructor -/

theorem test_table_has_34_rows : opcodeRows.length = 34 := by decide

theorem test_table_rows_are_disjoint :
    opcodeRows.Pairwise (fun r q => r.disjoint q = true) := by decide

/-- One ill-formed word for each family of R87, which the check refuses. -/
theorem test_ill_formed_words_refused :
    wordWellFormed 0x0123 = false ∧ wordWellFormed 0x5121 = false ∧ wordWellFormed 0x8128 = false ∧
    wordWellFormed 0x912F = false ∧ wordWellFormed 0xE59F = false ∧ wordWellFormed 0xF300 = false := by
  decide

theorem test_well_formed_words_accepted :
    wordWellFormed 0x00E0 = true ∧ wordWellFormed 0x8476 = true ∧ wordWellFormed 0xD125 = true ∧
    wordWellFormed 0xFF65 = true := by decide

theorem test_decode_family0 : decode 0x00E0 = .ok .cls ∧ decode 0x00EE = .ok .ret := by decide

theorem test_decode_addresses :
    decode 0x1234 = .ok (.jp 0x234) ∧ decode 0x2300 = .ok (.call 0x300) ∧
    decode 0xA2F0 = .ok (.ldI 0x2F0) ∧ decode 0xBFFF = .ok (.jpV0 0xFFF) := by decide

theorem test_decode_bytes :
    decode 0x3342 = .ok (.seImm 3 0x42) ∧ decode 0x4342 = .ok (.sneImm 3 0x42) ∧
    decode 0x6A2B = .ok (.ldImm 10 0x2B) ∧ decode 0x7120 = .ok (.addImm 1 0x20) ∧
    decode 0xC30F = .ok (.rnd 3 0x0F) := by decide

theorem test_decode_register_pairs :
    decode 0x5120 = .ok (.seReg 1 2) ∧ decode 0x9120 = .ok (.sneReg 1 2) ∧
    decode 0xD125 = .ok (.drw 1 2 5) := by decide

theorem test_decode_family8 :
    decode 0x8120 = .ok (.ldReg 1 2) ∧ decode 0x8121 = .ok (.or 1 2) ∧ decode 0x8122 = .ok (.and 1 2) ∧
    decode 0x8123 = .ok (.xor 1 2) ∧ decode 0x8124 = .ok (.addReg 1 2) ∧ decode 0x8125 = .ok (.sub 1 2) ∧
    decode 0x8476 = .ok (.shr 4) ∧ decode 0x8127 = .ok (.subn 1 2) ∧ decode 0x847E = .ok (.shl 4) := by
  decide

theorem test_decode_keys : decode 0xE59E = .ok (.skp 5) ∧ decode 0xE5A1 = .ok (.sknp 5) := by decide

theorem test_decode_familyF :
    decode 0xF307 = .ok (.ldVxDT 3) ∧ decode 0xF30A = .ok (.ldVxK 3) ∧ decode 0xF315 = .ok (.ldDTVx 3) ∧
    decode 0xF318 = .ok (.ldSTVx 3) ∧ decode 0xF21E = .ok (.addI 2) ∧ decode 0xFA29 = .ok (.ldF 10) ∧
    decode 0xF333 = .ok (.ldB 3) ∧ decode 0xF255 = .ok (.ldMemVx 2) ∧ decode 0xFF65 = .ok (.ldVxMem 15) := by
  decide

/-- X-1 to X-4, A-29, A-30, T-15, T-16. -/
theorem test_decode_refuses :
    decode 0x0123 = .error (.unknownOpcode 0x0123) ∧ decode 0x0000 = .error (.unknownOpcode 0x0000) ∧
    decode 0x5121 = .error (.unknownOpcode 0x5121) ∧ decode 0x812F = .error (.unknownOpcode 0x812F) ∧
    decode 0xE59F = .error (.unknownOpcode 0xE59F) ∧ decode 0xF300 = .error (.unknownOpcode 0xF300) := by
  decide

theorem test_decode_short_bytes : decodeBytes [0x00] = .error .truncated := by decide

theorem test_encode_words :
    encode (.addReg 1 2) = 0x8124 ∧ encode (.shl 4) = 0x840E ∧ encode (.drw 1 2 5) = 0xD125 ∧
    encode (.ldMemVx 2) = 0xF255 := by decide

theorem test_table_word : decodeTableWord 16 0x8124 = some (.addReg 1 2) := by decide

/-! ## States and outcomes the tests use -/

/-- The next state of an outcome, if it is one. -/
def nextOf : Outcome → Option State
  | .next s => some s
  | .fault _ => none
  | .refused _ => none

/-- The error of an outcome, if it is one. -/
def faultOf : Outcome → Option Fault
  | .next _ => none
  | .fault f => some f
  | .refused _ => none

/-- The state after construction with some registers and I set. -/
def start (regs : List (Reg × Byte)) (i : Word) : State :=
  (regs.foldl (fun s p => s.setV p.1 p.2) State.reset).setI i

/-- A state with bytes stored at 0x300. -/
def with300 (s : State) (bs : List Byte) : State := s.setMem (s.mem.writeBytes 0x300 bs)

/-- A state with n return addresses in use, each 0x200. -/
def withCalls (n : Fin 17) : State := State.reset.setStack (Vector.replicate 16 0x200) n

/-- A state with these keys pressed. -/
def withKeys (s : State) (ks : List (Fin 16)) : State := ks.foldl (fun s k => setKey k true s) s

/-- Some registers of the next state, with pc. -/
def regsAfter (o : Outcome) (ks : List Reg) : Option (List Byte × Word) :=
  (nextOf o).map fun t => (ks.map fun k => t.v[k], t.pc)

/-! ## Control flow -/

/-- C-1. -/
theorem test_ret : (nextOf (exec .ret ((withCalls 1).setPc 0x300))).map (fun t => (t.sp, t.pc)) =
    some (0, 0x202) := by decide

/-- C-2. -/
theorem test_ret_underflow : faultOf (exec .ret (withCalls 0)) = some .stackUnderflow := by decide

/-- C-7. -/
theorem test_call : (nextOf (exec (.call 0x300) (withCalls 15))).map (fun t => (t.stack[15], t.sp, t.pc)) =
    some (0x200, 16, 0x300) := by decide

/-- C-8. -/
theorem test_call_overflow : faultOf (exec (.call 0x300) (withCalls 16)) = some .stackOverflow := by decide

/-- C-4. -/
theorem test_jp : (nextOf (exec (.jp 0x234) State.reset)).map (·.pc) = some 0x234 := by decide

/-- C-10. -/
theorem test_jpV0 : (nextOf (exec (.jpV0 0xFFF) (start [(0, 0xFF)] 0))).map (·.pc) = some 0x10FE := by
  decide

/-- C-12 and C-13. -/
theorem test_seImm :
    (nextOf (exec (.seImm 3 0x42) (start [(3, 0x42)] 0))).map (·.pc) = some 0x204 ∧
    (nextOf (exec (.seImm 3 0x42) (start [(3, 0x41)] 0))).map (·.pc) = some 0x202 := by decide

/-- C-14 and C-15. -/
theorem test_sneImm :
    (nextOf (exec (.sneImm 3 0x42) (start [(3, 0x41)] 0))).map (·.pc) = some 0x204 ∧
    (nextOf (exec (.sneImm 3 0x42) (start [(3, 0x42)] 0))).map (·.pc) = some 0x202 := by decide

/-- C-16, and a pair that differs. -/
theorem test_seReg :
    (nextOf (exec (.seReg 1 2) (start [(1, 7), (2, 7)] 0))).map (·.pc) = some 0x204 ∧
    (nextOf (exec (.seReg 1 2) (start [(1, 7), (2, 8)] 0))).map (·.pc) = some 0x202 := by decide

/-- C-18 and C-19. -/
theorem test_sneReg :
    (nextOf (exec (.sneReg 1 2) (start [(1, 7), (2, 8)] 0))).map (·.pc) = some 0x204 ∧
    (nextOf (exec (.sneReg 1 1) State.reset)).map (·.pc) = some 0x202 := by decide

/-! ## Arithmetic and logic -/

/-- A-1. -/
theorem test_ldImm : regsAfter (exec (.ldImm 10 0x2B) State.reset) [10] = some ([0x2B], 0x202) := by decide

/-- A-3. -/
theorem test_addImm_no_flag :
    regsAfter (exec (.addImm 1 0x01) (start [(1, 0xFF), (15, 0x05)] 0)) [1, 15] =
      some ([0x00, 0x05], 0x202) := by decide

/-- A-5. -/
theorem test_ldReg : regsAfter (exec (.ldReg 1 2) (start [(2, 0x55)] 0)) [1] = some ([0x55], 0x202) := by
  decide

/-- A-6. -/
theorem test_or : regsAfter (exec (.or 1 2) (start [(1, 0x0F), (2, 0xF0), (15, 0x09)] 0)) [1, 15] =
    some ([0xFF, 0x09], 0x202) := by decide

/-- A-7. -/
theorem test_and : regsAfter (exec (.and 1 2) (start [(1, 0x3C), (2, 0x0F), (15, 0x09)] 0)) [1, 15] =
    some ([0x0C, 0x09], 0x202) := by decide

/-- A-8. -/
theorem test_xor : regsAfter (exec (.xor 1 2) (start [(1, 0x3C), (2, 0x0F)] 0)) [1] =
    some ([0x33], 0x202) := by decide

/-- A-10 and A-11. -/
theorem test_addReg :
    regsAfter (exec (.addReg 1 2) (start [(1, 0xFF), (2, 0x01)] 0)) [1, 15] = some ([0x00, 0x01], 0x202) ∧
    regsAfter (exec (.addReg 1 2) (start [(1, 0xFE), (2, 0x01), (15, 1)] 0)) [1, 15] =
      some ([0xFF, 0x00], 0x202) := by decide

/-- A-13 and A-14: VF as destination and as operand. -/
theorem test_addReg_vf :
    regsAfter (exec (.addReg 15 2) (start [(15, 0xFF), (2, 0x01)] 0)) [15] = some ([0x01], 0x202) ∧
    regsAfter (exec (.addReg 1 15) (start [(1, 0x10), (15, 0x01)] 0)) [1, 15] =
      some ([0x11, 0x00], 0x202) := by decide

/-- A-15 and A-16. -/
theorem test_sub :
    regsAfter (exec (.sub 1 2) (start [(1, 0x01), (2, 0x02)] 0)) [1, 15] = some ([0xFF, 0x00], 0x202) ∧
    regsAfter (exec (.sub 1 2) (start [(1, 0x05), (2, 0x05)] 0)) [1, 15] = some ([0x00, 0x01], 0x202) := by
  decide

/-- A-19 and A-20. -/
theorem test_subn :
    regsAfter (exec (.subn 1 2) (start [(1, 0x10), (2, 0x30)] 0)) [1, 15] = some ([0x20, 0x01], 0x202) ∧
    regsAfter (exec (.subn 1 2) (start [(1, 0x02), (2, 0x01)] 0)) [1, 15] = some ([0xFF, 0x00], 0x202) := by
  decide

/-- A-24 and A-25. -/
theorem test_shr :
    regsAfter (exec (.shr 4) (start [(4, 0xFF)] 0)) [4, 15] = some ([0x7F, 0x01], 0x202) ∧
    regsAfter (exec (.shr 15) (start [(15, 0x03)] 0)) [15] = some ([0x01], 0x202) := by decide

/-- A-26 and A-27. -/
theorem test_shl :
    regsAfter (exec (.shl 4) (start [(4, 0x81)] 0)) [4, 15] = some ([0x02, 0x01], 0x202) ∧
    regsAfter (exec (.shl 4) (start [(4, 0x7F), (15, 1)] 0)) [4, 15] = some ([0xFE, 0x00], 0x202) := by
  decide

/-! ## Index and memory -/

/-- M-1. -/
theorem test_ldI : (nextOf (exec (.ldI 0x2F0) State.reset)).map (·.i) = some 0x02F0 := by decide

/-- M-2, M-4 and M-5. -/
theorem test_addI :
    (nextOf (exec (.addI 2) (start [(2, 0x20)] 0xFF0))).map (fun t => (t.i, t.v[15])) = some (0x1010, 1) ∧
    (nextOf (exec (.addI 2) (start [(2, 0x01)] 0xFFFF))).map (fun t => (t.i, t.v[15])) = some (0, 1) ∧
    (nextOf (exec (.addI 15) (start [(15, 0x02)] 0x100))).map (fun t => (t.i, t.v[15])) = some (0x102, 0) := by
  decide

/-- M-6, over FONT_BASE. -/
theorem test_ldF : (nextOf (exec (.ldF 10) (start [(10, 0x0A)] 0))).map (·.i) =
    some (BitVec.ofNat 16 (Config.fontBase + 0x32)) := rfl

/-- M-9. -/
theorem test_ldB : (nextOf (exec (.ldB 3) (start [(3, 0xFF)] 0x300))).map
    (fun t => ([0x300, 0x301, 0x302].map t.mem.read, t.i)) = some ([2, 5, 5], 0x300) := by decide

/-- M-11. -/
theorem test_ldB_bounds : faultOf (exec (.ldB 3) (start [(3, 0x07)] 0xFFE)) = some (.boundsAddr 0x1000) := by
  decide

/-- M-12. -/
theorem test_ldMemVx :
    (nextOf (exec (.ldMemVx 2) (start [(0, 0x11), (1, 0x22), (2, 0x33), (3, 0x44)] 0x300))).map
      (fun t => ([0x300, 0x301, 0x302, 0x303].map t.mem.read, t.i)) =
      some ([0x11, 0x22, 0x33, 0x00], 3) := by decide

/-- M-14 and M-15. -/
theorem test_ldMemVx_bounds :
    faultOf (exec (.ldMemVx 15) (start [] 0xFF1)) = some (.boundsAddr 0x1000) ∧
    (nextOf (exec (.ldMemVx 15) (start [(15, 0xEE)] 0xFF0))).map (fun t => (t.mem.read 0xFFF, t.i)) =
      some (0xEE, 0x10) := by decide

/-- M-16. -/
theorem test_ldVxMem :
    (nextOf (exec (.ldVxMem 2) (with300 (start [(3, 0x77)] 0x300) [0x11, 0x22, 0x33, 0x44]))).map
      (fun t => ([t.v[0], t.v[1], t.v[2], t.v[3]], t.i)) = some ([0x11, 0x22, 0x33, 0x77], 3) := by decide

/-- M-18. -/
theorem test_ldVxMem_bounds : faultOf (exec (.ldVxMem 0) (start [] 0x1000)) = some (.boundsAddr 0x1000) := by
  decide

/-- A byte stored over and then set back to what it reads as unlisted is listed no more. -/
theorem test_memory_is_canonical :
    ((Memory.write [] 0x300 5).write 0x2FF 6).write 0x300 0 = [(0x2FF, 6)] := by decide

/-! ## Display -/

/-- D-11. -/
theorem test_cls :
    (nextOf (exec .cls (State.reset.setDisp (blankDisplay.flip 5 5)))).map
      (fun t => (t.disp.pixel 5 5, t.dirty, t.pc)) = some (false, true, 0x202) := by decide

/-- D-5: start and pixels wrap, the most significant bit leftmost. -/
theorem test_drw_wraps :
    (nextOf (exec (.drw 0 1 1) (with300 (start [(0, 0x41), (1, 0x21)] 0x300) [0xC0]))).map
      (fun t => ([t.disp.pixel 1 1, t.disp.pixel 2 1, t.disp.pixel 3 1], t.v[15], t.dirty)) =
      some ([true, true, false], 0, true) := by decide

/-- D-2 and D-10: collision, and VF's old value as a coordinate. -/
theorem test_drw_collision :
    (nextOf (exec (.drw 15 1 1)
      ((with300 (start [(15, 5)] 0x300) [0x80]).setDisp (blankDisplay.flip 5 0)))).map
      (fun t => (t.disp.pixel 5 0, t.v[15])) = some (false, 1) := by decide

/-! ## Random, keys and timers -/

/-- T-1 and T-3, for whatever byte comes. -/
theorem test_rnd : (nextOf (exec (.rnd 3 0x0F) State.reset)).map (fun t => (t.v[3], t.rndPos)) =
    some (Config.randomByte 0 &&& 0x0F, 1) := rfl

/-- T-4 and T-5. -/
theorem test_skp :
    (nextOf (exec (.skp 5) (withKeys (start [(5, 7)] 0) [7]))).map (·.pc) = some 0x204 ∧
    (nextOf (exec (.skp 5) (start [(5, 7)] 0))).map (·.pc) = some 0x202 := by decide

/-- T-8. -/
theorem test_skp_bounds : faultOf (exec (.skp 5) (start [(5, 16)] 0)) = some (.boundsKey 16) := by decide

/-- T-6 and T-7. -/
theorem test_sknp :
    (nextOf (exec (.sknp 5) (start [(5, 7)] 0))).map (·.pc) = some 0x204 ∧
    (nextOf (exec (.sknp 5) (withKeys (start [(5, 7)] 0) [7]))).map (·.pc) = some 0x202 := by decide

/-- T-9. -/
theorem test_ldVxDT : regsAfter (exec (.ldVxDT 3) (State.reset.setDT 0x3C)) [3] = some ([0x3C], 0x202) := by
  decide

/-- T-10. -/
theorem test_ldDTVx : (nextOf (exec (.ldDTVx 3) (start [(3, 0x3C)] 0))).map (fun t => (t.dt, t.st)) =
    some (0x3C, 0) := by decide

/-- T-11. -/
theorem test_ldSTVx : (nextOf (exec (.ldSTVx 3) (start [(3, 0x05)] 0))).map (fun t => (t.dt, t.st)) =
    some (0, 0x05) := by decide

/-- T-12 and T-13. -/
theorem test_ldVxK :
    regsAfter (exec (.ldVxK 3) (withKeys State.reset [3, 9])) [3] = some ([0x09], 0x202) ∧
    regsAfter (exec (.ldVxK 3) State.reset) [3] = some ([0x00], 0x200) := by decide

/-! ## Step, fetch and the host's operations -/

/-- X-7 to X-9. -/
theorem test_fetch_bounds :
    faultOf (step (State.reset.setPc 0xFFF)) = some (.boundsAddr 0x1000) ∧
    faultOf (step (State.reset.setPc 0x10FE)) = some (.boundsAddr 0x10FE) := by decide

/-- X-10 and X-11: an odd fetch, and the last fetchable word. -/
theorem test_fetch_odd_and_last :
    (nextOf (step ((State.reset.setPc 0x201).withFetchWord 16 0x6107))).map (fun t => (t.v[1], t.pc)) =
      some (0x07, 0x203) ∧
    (nextOf (step ((State.reset.setPc 0xFFE).withFetchWord 16 0x1234))).map (·.pc) = some 0x234 := by decide

/-- X-2: a Step from reset with no program loaded. -/
theorem test_step_from_reset : faultOf (step State.reset) = some (.unknownOpcode 0x0000) := by decide

/-- H-1 and H-2. -/
theorem test_tick :
    ((tickTimers ((State.reset.setDT 2).setST 1)).dt, (tickTimers ((State.reset.setDT 2).setST 1)).st) = (1, 0) ∧
    (tickTimers State.reset).dt = 0 := by decide

/-- L1-6, the last Step of it: three key waits, a key set, and the wait ends. -/
theorem test_run_key_wait :
    (Block.run [.load [0xF3, 0x0A], .step, .step, .step, .setKey 7 true, .step] Block.construct).1 =
      [.ok, .ok, .ok, .ok, .ok, .ok] ∧
    (Block.run [.load [0xF3, 0x0A], .step, .step, .step, .setKey 7 true, .step] Block.construct).2.state.v[3] =
      7 := by decide

/-- R61: a second load has no move. -/
theorem test_second_load :
    (Block.run [.load [], .load []] Block.construct).1 = [.ok, .refused .loadNotAdmitted] := by decide

/-! ## Witnesses: the hypotheses of the statements can be met -/

theorem test_witness_ReturnPopsCallAddress :
    (withCalls 0).sp.val = 0 ∧ 0 < (withCalls 1).sp.val ∧ 0 < (withCalls 16).sp.val := by decide

theorem test_witness_CallStacksItsOwnAddress :
    (withCalls 16).sp.val = 16 ∧ (withCalls 15).sp.val < 16 ∧ (withCalls 0).sp.val < 16 := by decide

theorem test_witness_ReturnUndoesCall :
    ∃ s t u : State, exec (.call 0x300) s = .next t ∧ u.sp = t.sp ∧
      ∀ k : Fin 16, k.val < t.sp.val → u.stack[k] = t.stack[k] :=
  ⟨withCalls 15, _, _, rfl, rfl, fun _ _ => rfl⟩

/-- A CALL and RET nested between overwrite an entry above SP and meet the hypotheses still. -/
theorem test_witness_ReturnUndoesCall_nested :
    ∃ t n u : State, exec (.call 0x300) (withCalls 1) = .next t ∧ exec (.call 0x400) t = .next n ∧
      exec .ret n = .next u ∧ u.sp = t.sp ∧ u.stack ≠ t.stack ∧
      ∀ k : Fin 16, k.val < t.sp.val → u.stack[k] = t.stack[k] :=
  ⟨_, _, _, rfl, rfl, rfl, by decide, by decide, by decide⟩

theorem test_witness_StackChangedByCallAndRetOnly :
    ∃ s t : State, exec .cls s = .next t ∧ Instr.cls ≠ .ret ∧ ∀ nnn, Instr.cls ≠ .call nnn :=
  ⟨State.reset, _, rfl, by decide, fun _ h => by cases h⟩

theorem test_witness_flag_instructions_with_other_destination : (1 : Reg) ≠ vf ∧ (14 : Reg) ≠ vf := by decide

theorem test_witness_BcdStoresThreeDigits :
    0xFFF < (start [] 0xFFE).i.toNat + 2 ∧ (start [] 0xFFD).i.toNat + 2 ≤ 0xFFF := by decide

theorem test_witness_BlockStoreWritesRegisters :
    0xFFF < (start [] 0xFF1).i.toNat + (15 : Reg).val ∧
    (start [] 0xFF0).i.toNat + (15 : Reg).val ≤ 0xFFF := by decide

theorem test_witness_BlockLoadReadsRegisters :
    0xFFF < (start [] 0x1000).i.toNat + (0 : Reg).val ∧
    (start [] 0xFFF).i.toNat + (0 : Reg).val ≤ 0xFFF := by decide

theorem test_witness_BlockLoadUndoesBlockStore :
    ∃ s t u : State, exec (.ldMemVx 2) s = .next t ∧ u.mem = t.mem ∧ u.i = s.i :=
  ⟨start [] 0x300, _, State.setI (State.setMem State.reset _) 0x300, rfl, rfl, rfl⟩

theorem test_witness_StoredBytesAreFetched :
    ∃ s t u : State, 1 ≤ (1 : Reg).val ∧ exec (.ldMemVx 1) s = .next t ∧ u.mem = t.mem ∧ u.pc = s.i ∧
      decode (s.v[(0 : Reg)] ++ s.v[(1 : Reg)]) = .ok (.ldImm 1 7) :=
  ⟨start [(0, 0x61), (1, 0x07)] 0x300, _, State.setPc (State.setMem State.reset _) 0x300, by decide, rfl, rfl,
    rfl, by decide⟩

theorem test_witness_MemoryWrittenByStoresOnly :
    ∃ s t : State, exec .cls s = .next t ∧ (∀ x, Instr.cls ≠ .ldB x) ∧ ∀ x, Instr.cls ≠ .ldMemVx x :=
  ⟨State.reset, _, rfl, fun _ h => (by cases h), fun _ h => (by cases h)⟩

theorem test_witness_DrawXorsSpriteAndReportsCollision_bounds :
    (0 : Rows).val = 0 ∧ (start [] 0xFFF).i.toNat + (1 : Rows).val - 1 ≤ 0xFFF := by decide

theorem test_witness_DrawXorsSpriteAndReportsCollision_set :
    (blankDisplay.flip 0 0)[(0 : Fin 64)][(0 : Fin 32)] = true ∧
    spriteMask (Memory.write [] 0x300 0x80) 0x300 0 0 1 0 0 = true := by decide

theorem test_witness_DrawXorsSpriteAndReportsCollision_clear :
    ∀ (px : Fin 64) (py : Fin 32), blankDisplay[px][py] = true → spriteMask [] 0x300 0 0 1 px py = false := by
  intro px py h
  have h' : blankDisplay[px][py] = false := pixel_blank px py
  rw [h'] at h
  cases h

theorem test_witness_DrawOutOfBoundsFaults :
    0 < (2 : Rows).val ∧ 0xFFF < (start [] 0xFFF).i.toNat + (2 : Rows).val - 1 := by decide

theorem test_witness_DoubleDrawRestoresDisplay :
    ∃ s t u r : State, exec (.drw 0 1 1) s = .next t ∧ u.disp = t.disp ∧ u.i = s.i ∧
      u.v[(0 : Reg)] = s.v[(0 : Reg)] ∧ u.v[(1 : Reg)] = s.v[(1 : Reg)] ∧
      (∀ a : Nat, u.mem.read a = s.mem.read a) ∧ exec (.drw 0 1 1) u = .next r :=
  ⟨with300 (start [] 0x300) [0x80], _, _, _, rfl, rfl, rfl, by decide, by decide, fun _ => rfl, rfl⟩

theorem test_witness_KeySkipsTestTheLatch :
    ((start [(5, 15)] 0).v[(5 : Reg)]).toNat < 16 ∧ 15 < ((start [(5, 16)] 0).v[(5 : Reg)]).toNat := by decide

theorem test_witness_KeyWaitTakesHighestKey :
    (∀ k : Fin 16, State.reset.key[k] = false) ∧ (withKeys State.reset [3, 9]).key[(9 : Fin 16)] = true ∧
    (∀ j : Fin 16, 9 < j → (withKeys State.reset [3, 9]).key[j] = false) ∧
    (withKeys State.reset [15]).key[(15 : Fin 16)] = true ∧
    (∀ j : Fin 16, 15 < j → (withKeys State.reset [15]).key[j] = false) := by decide

theorem test_witness_StepNeverTicksOrPressesKeys :
    ∃ t : State, step (State.reset.withFetchWord 16 0xF315) = .next t ∧
      (State.setDirty State.reset true).dirty = true := ⟨_, rfl, rfl⟩

theorem test_witness_KeyWaitSuspends :
    (State.reset.withFetchWord 16 0xF30A).pc.toNat ≤ 0xFFE ∧
    decode ((State.reset.withFetchWord 16 0xF30A).mem.readWord (State.reset.withFetchWord 16 0xF30A).pc.toNat) =
      .ok (.ldVxK 3) ∧
    (∀ k : Fin 16, (State.reset.withFetchWord 16 0xF30A).key[k] = false) := by decide

theorem test_witness_OnlyMappedRegistersAreWritten :
    ∃ s t : State, exec (.addReg 1 2) s = .next t ∧ writesReg (.addReg 1 2) 3 = false :=
  ⟨State.reset, _, rfl, by decide⟩

theorem test_witness_UnmappedRegistersAreNotRead :
    readsReg (.addReg 1 2) 3 = false ∧ writesReg (.addReg 1 2) 3 = false ∧
    readsReg (.addReg 1 2) 15 = false ∧ writesReg (.addReg 1 2) 15 = true ∧
    (∀ x, Instr.addReg 1 2 ≠ .ldVxK x) := by
  refine ⟨by decide, by decide, by decide, by decide, ?_⟩
  intro x h
  cases h

theorem test_witness_RandomByteMattersToRndOnly : ∀ x nn, Instr.ldVxDT 1 ≠ .rnd x nn := by
  intro x nn h
  cases h

theorem test_witness_SoundTimerAndDirtyAreNeverRead :
    (∀ x, Instr.ldVxDT 1 ≠ .ldSTVx x) ∧ Instr.ldVxDT 1 ≠ .cls ∧ ∀ x y n, Instr.ldVxDT 1 ≠ .drw x y n := by
  refine ⟨?_, by decide, ?_⟩
  · intro x h
    cases h
  · intro x y n h
    cases h

theorem test_witness_EachInstructionRaisesItsOwnError :
    exec .ret (withCalls 0) = .fault .stackUnderflow := rfl

theorem test_witness_StepKeepsControlBounded :
    ∃ t, ControlBounded (State.reset.withFetchWord 16 0x2300) ∧
      step (State.reset.withFetchWord 16 0x2300) = .next t :=
  ⟨_, ⟨by decide, fun k h => absurd h (Nat.not_lt_zero k.val)⟩, rfl⟩

theorem test_witness_StepKeepsMemoryCanonical :
    ∃ t, MemoryCanonical ((start [] 0x300).withFetchWord 16 0xF055) ∧
      step ((start [] 0x300).withFetchWord 16 0xF055) = .next t :=
  ⟨_, by unfold MemoryCanonical; decide, rfl⟩

theorem test_witness_FontPointerFindsTheGlyph :
    let s := (start [(1, 15)] 0).withFetchWord 16 0xF129
    (s.v[(1 : Reg)]).toNat < 16 ∧ decode (s.mem.readWord s.pc.toNat) = .ok (.ldF 1) ∧
    ∀ k : Fin 80, s.mem.read (Config.fontBase + k.val) = Config.fontGlyphs.getD k.val 0 := by
  refine ⟨by decide, by decide, fun k => ?_⟩
  have := fontBase_bound
  show (Memory.writeBytes [] 0x200 [0xF1, 0x29]).read (Config.fontBase + k.val) = _
  rw [read_writeBytes_outside _ _ (by omega)]
  show Memory.initial _ = _
  rw [initial_font k.isLt, List.getD_eq_getElem]

theorem test_witness_StepRunsTheDecodedInstruction :
    ((State.reset.setPc 0xFFE).withFetchWord 16 0x1234).pc.toNat ≤ 0xFFE ∧
    decode (((State.reset.setPc 0xFFE).withFetchWord 16 0x1234).mem.read 0xFFE ++
      ((State.reset.setPc 0xFFE).withFetchWord 16 0x1234).mem.read 0xFFF) = .ok (.jp 0x234) := by decide

theorem test_witness_FetchOutOfBoundsFaults :
    (State.reset.setPc 0xFFF).pc = 0xFFF ∧ 0x1000 ≤ (State.reset.setPc 0x1000).pc.toNat := by decide

theorem test_witness_UnknownOpcodeIsReturned :
    Block.construct.state.pc.toNat ≤ 0xFFE ∧
    decode (Block.construct.state.mem.read Block.construct.state.pc.toNat ++
      Block.construct.state.mem.read (Block.construct.state.pc.toNat + 1)) = .error (.unknownOpcode 0) := by
  decide

theorem test_witness_OnlyShiftYIsIgnored : decode 0x8476 = .ok (.shr 4) ∧ decode 0x8124 = .ok (.addReg 1 2) := by
  decide

theorem test_witness_LoadPlacesTheProgram :
    3584 < (List.replicate 3585 (0 : Byte)).length ∧ (List.replicate 3584 (0 : Byte)).length ≤ 3584 ∧
    0 < (List.replicate 3584 (0 : Byte)).length := by
  rw [List.length_replicate, List.length_replicate]
  omega

theorem test_witness_ConstructionValues : 0 < Config.fontBase + 80 ∧ Config.fontBase + 80 ≤ 512 :=
  ⟨Nat.succ_pos _, fontBase_bound⟩

theorem test_witness_NoLoadAfterTheStart : (Block.construct.apply .step).2.phase = .started ∧
    (Block.construct.apply (.load [0x12, 0x00])).1 = .ok := by decide

theorem test_witness_FailedStepChangesNothing :
    (Block.construct.apply .step).1 = .error (.unknownOpcode 0) := by decide

theorem test_witness_HaltIsStuck : AtHalt 0x200 (State.reset.withFetchWord 16 0x1200) := by
  refine ⟨?_, ?_, ?_⟩ <;> decide

theorem test_witness_RunFromTheHaltStaysThere :
    AtHalt 0x200 (Block.construct.apply (.load [0x12, 0x00])).2.state ∧
    ∀ bytes, HostOp.load bytes ∉ [HostOp.step, HostOp.tick, HostOp.setKey 3 true] :=
  ⟨⟨by decide, by decide, by decide⟩, by simp⟩

/-- LD V0, 5 and then the jump to itself at 0x202: the run ends with its first Step. -/
theorem test_witness_RunEndsAtItsFirstHalt :
    EndsAt 0x202 (([.load [0x60, 0x05, 0x12, 0x02], .step, .tick, .step] : List HostOp).take 2) := by
  refine ⟨by unfold CleanRun; decide, ⟨by decide, by decide, by decide⟩, fun n hn h => ?_⟩
  have hp : (boundaryState [.load [0x60, 0x05, 0x12, 0x02], .step] n).pc = 0x202 := h.1
  have : n = 0 ∨ n = 1 := by simp at hn; omega
  rcases this with rfl | rfl <;> exact absurd hp (by decide)

end Sys2Proof.Tests
end

/-! # O36: the sound timer and the dirty flag are never read (10_state.md R30, R33)

An update of ST and dirty commutes with every operation of the model that does not write them, so both
clauses of the obligation are instances of one lemma over the instructions, `exec_mapSoundDirty`. -/

namespace Sys2Proof.Machine

/-! ### A change of the next state passes through the shared checks -/

@[simp] theorem mapNext_next (f : State → State) (s : State) : mapNext f (.next s) = .next (f s) := rfl

theorem mapNext_withAccess (f : State → State) (base len : Nat) (go : Outcome) :
    mapNext f (withAccess base len go) = withAccess base len (mapNext f go) := by
  unfold withAccess
  split <;> rfl

theorem mapNext_withKey (f : State → State) (k : Byte) (go : Fin 16 → Outcome) :
    mapNext f (withKey k go) = withKey k fun j => mapNext f (go j) := by
  unfold withKey
  split <;> rfl

theorem mapNext_withPush (f : State → State) (s : State) (w : Word) (go : State → Outcome) :
    mapNext f (withPush s w go) = withPush s w fun t => mapNext f (go t) := by
  unfold withPush
  split <;> rfl

theorem mapNext_withPop (f : State → State) (s : State) (go : Word → State → Outcome) :
    mapNext f (withPop s go) = withPop s fun w t => mapNext f (go w t) := by
  unfold withPop
  split <;> rfl

/-! ### Updating the sound timer and the dirty flag -/

/-- Update ST by `g` and dirty by `h`. With one of them `id` this is `State.setST` or `State.setDirty`,
and no operation that writes neither can tell the two states apart. -/
def State.mapSoundDirty (g : Byte → Byte) (h : Bool → Bool) (s : State) : State :=
  (s.setST (g s.st)).setDirty (h s.dirty)

variable (g : Byte → Byte) (h : Bool → Bool) (s : State)

theorem mapSoundDirty_const_id (b : Byte) :
    State.mapSoundDirty (fun _ => b) id = fun t => t.setST b := rfl

theorem mapSoundDirty_id_const (d : Bool) :
    State.mapSoundDirty id (fun _ => d) = fun t => t.setDirty d := rfl

theorem skipIf_mapSoundDirty (c : Bool) :
    skipIf c (s.mapSoundDirty g h) = (skipIf c s).mapSoundDirty g h := by
  cases c <;> rfl

theorem execLdVxK_mapSoundDirty (x : Reg) :
    execLdVxK x (s.mapSoundDirty g h) = mapNext (State.mapSoundDirty g h) (execLdVxK x s) := by
  have hkey : (s.mapSoundDirty g h).key = s.key := rfl
  unfold execLdVxK
  rw [hkey]
  cases scanKeys s.key 16 <;> rfl

/-- Every instruction carries an update of ST and dirty along, so long as the update leaves alone
whichever of the two the instruction writes. -/
theorem exec_mapSoundDirty (i : Instr) (hst : ∀ x, i = .ldSTVx x → g = id)
    (hcls : i = .cls → h = id) (hdrw : ∀ x y n, i = .drw x y n → h = id) :
    exec i (s.mapSoundDirty g h) = mapNext (State.mapSoundDirty g h) (exec i s) := by
  cases i with
  -- the writers of ST and of dirty
  | ldSTVx x =>
    obtain rfl := hst x rfl
    rfl
  | cls =>
    obtain rfl := hcls rfl
    rfl
  | drw x y n =>
    obtain rfl := hdrw x y n rfl
    simp only [exec, execDrw, mapNext_withAccess]
    rfl
  -- the call stack
  | ret =>
    simp only [exec, execRet, mapNext_withPop]
    rfl
  | call nnn =>
    simp only [exec, execCall, mapNext_withPush]
    rfl
  -- the skips
  | seImm _ _ | sneImm _ _ | seReg _ _ | sneReg _ _ =>
    exact congrArg Host.Outcome.next (skipIf_mapSoundDirty ..)
  | skp x | sknp x =>
    simp only [exec, execSkp, execSknp, mapNext_withKey, mapNext_next, skipIf_mapSoundDirty]
    rfl
  -- memory through I, and the key wait
  | ldB _ | ldMemVx _ | ldVxMem _ =>
    simp only [exec, execLdB, execLdMemVx, execLdVxMem, mapNext_withAccess]
    rfl
  | ldVxK x => exact execLdVxK_mapSoundDirty g h s x
  -- one next state, made by writes of other fields
  | jp _ | jpV0 _ | ldImm _ _ | addImm _ _ | ldReg _ _ | or _ _ | and _ _ | xor _ _ | addReg _ _
  | sub _ _ | shr _ | subn _ _ | shl _ | ldI _ | rnd _ _ | ldVxDT _ | ldDTVx _ | addI _ | ldF _ => rfl

end Sys2Proof.Machine

open Sys2Proof Sys2Proof.Machine in
/-- Settles O36: an instruction that does not write ST (dirty) carries an update of it along; the
writers overwrite it with a value that does not depend on it. -/
theorem soundTimerAndDirtyAreNeverRead : Obligations.SoundTimerAndDirtyAreNeverRead := by
  intro i s b d
  refine ⟨fun hst => ?_, fun x => rfl, fun hcls hdrw => ?_, rfl, fun x y n => rfl⟩
  · rw [← mapSoundDirty_const_id]
    exact exec_mapSoundDirty (fun _ => b) id s i (fun x hi => absurd hi (hst x)) (fun _ => rfl)
      (fun _ _ _ _ => rfl)
  · rw [← mapSoundDirty_id_const]
    exact exec_mapSoundDirty id (fun _ => d) s i (fun _ _ => rfl) (fun hi => absurd hi hcls)
      (fun x y n hi => absurd hi (hdrw x y n))

/-! # O54 and O42: the program load and the font pointer (20_memory.md R60, R62) -/

namespace Sys2Proof.Machine

/-- Replacing memory changes no other part of the state. -/
theorem frame_setMem (s : State) (m : Memory) : Frame [.memory] s (s.setMem m) := by
  intro p hp
  cases p with
  | memory => exact absurd List.mem_cons_self hp
  | stack => exact ⟨rfl, rfl⟩
  | regs => exact fun _ => rfl
  | index | delay | sound | keys | display | dirty | random => rfl

/-- A program that fits is placed in the block just constructed from the load address on (R60). -/
theorem construct_load_fits {bytes : List Byte} (h : bytes.length ≤ memSize - loadAddr) :
    Block.construct.apply (.load bytes) =
      (.ok, { state := State.reset.setMem (State.reset.mem.writeBytes loadAddr bytes),
              phase := .started }) := by
  obtain ⟨-, -, -, hload⟩ | ⟨hlong, -⟩ | ⟨hstarted, -⟩ := block_load_cases bytes Block.construct
  · exact hload
  · omega
  · exact absurd ⟨rfl, rfl⟩ hstarted

/-- A program that does not fit leaves the block just constructed as it was (R60). -/
theorem construct_load_tooLarge {bytes : List Byte} (h : memSize - loadAddr < bytes.length) :
    Block.construct.apply (.load bytes) = (.loadError .tooLarge, Block.construct) := by
  obtain ⟨-, -, hfits, -⟩ | ⟨-, hload⟩ | ⟨hstarted, -⟩ := block_load_cases bytes Block.construct
  · omega
  · exact hload
  · exact absurd ⟨rfl, rfl⟩ hstarted

/-- The glyph address of every byte fits in 16 bits: FONT_BASE + 5 × VX never wraps (R64, R184). -/
theorem glyphAddr_toNat (b : Byte) : (glyphAddr b).toNat = Config.fontBase + 5 * b.toNat := by
  have hbase := fontBase_bound
  have hb := b.isLt
  rw [glyphAddr, BitVec.toNat_ofNat, Nat.mod_eq_of_lt (by omega)]

end Sys2Proof.Machine

open Sys2Proof Sys2Proof.Machine in
/-- Settles O54: the load of a program that fits is one `writeBytes` at 512, so what a read gives after
it is the law of `writeBytes`, and every other part is framed by `setMem`. -/
theorem loadPlacesTheProgram : Obligations.LoadPlacesTheProgram := by
  intro bytes
  refine ⟨construct_load_tooLarge, fun hfits => ?_⟩
  rw [construct_load_fits hfits]
  exact ⟨rfl, fun k hk => read_writeBytes_inside _ bytes hk,
    fun a ha => read_writeBytes_outside _ bytes ha, rfl, frame_setMem _ _⟩

open Sys2Proof Sys2Proof.Machine in
/-- Settles O42: row j of the glyph of digit VX is byte 5 VX + j < 80 of the font table, and LD F writes
no memory. -/
theorem fontPointerFindsTheGlyph : Obligations.FontPointerFindsTheGlyph := by
  intro x s j hdigit hj hfont
  refine ⟨_, rfl, ?_⟩
  have hrow : 5 * (s.v[x]).toNat + j < 80 := by omega
  simp only [State.advance_mem, State.setI_mem, State.advance_i, State.setI_i, State.reg_eq,
    glyphAddr_toNat, Nat.add_assoc]
  exact hfont ⟨_, hrow⟩

/-! # O47: a legal word is its instruction's word but for the don't-care field (30_encoding.md R89) -/

namespace Sys2Proof.Machine

variable {w : Word} {i : Instr}

/-! ### A word from the fields the decoder has tested -/

theorem eq_encodeA {f : BitVec 4} (hf : fieldF w = f) : w = encodeA f (fieldNNN w) := by
  rw [← hf, encodeA_fields]

theorem eq_encodeXK {f : BitVec 4} {kk : Byte} (hf : fieldF w = f) (hk : fieldNN w = kk) :
    w = encodeXK f (fieldX w) kk := by
  rw [← hf, ← hk, encodeXK_fields]

theorem eq_encodeXY {f n : BitVec 4} (hf : fieldF w = f) (hn : fieldN w = n) :
    w = encodeXY f (fieldX w) (fieldY w) n := by
  rw [← hf, ← hn, encodeXY_fields]

/-- The mask of the shifts clears the field Y and keeps every other bit. -/
theorem encodeXY_mask_y (f : BitVec 4) (x y : Reg) (n : BitVec 4) :
    encodeXY f x y n &&& 0xFF0F = encodeXY f x 0 n := by
  apply BitVec.eq_of_getLsbD_eq
  intro j hj
  simp only [encodeXY, BitVec.getLsbD_and, BitVec.getLsbD_append]
  interval_cases j <;> simp [regBits]

/-! ### The words with a don't-care field -/

theorem withoutDontCare_of_family_ne (hf : fieldF w ≠ 0x8) : withoutDontCare w = w :=
  if_neg fun h => hf h.1

theorem withoutDontCare_of_op_ne {n : BitVec 4} (hf : fieldF w = 0x8) (hn : fieldN w = n)
    (hop : ¬ (n = 0x6 ∨ n = 0xE)) :
    withoutDontCare w = encodeXY 0x8 (fieldX w) (fieldY w) n := by
  rw [withoutDontCare, hn, if_neg fun h => hop h.2]
  exact eq_encodeXY hf hn

theorem withoutDontCare_of_shift {n : BitVec 4} (hf : fieldF w = 0x8) (hn : fieldN w = n)
    (hop : n = 0x6 ∨ n = 0xE) : withoutDontCare w = encodeXY 0x8 (fieldX w) 0 n := by
  rw [withoutDontCare, hn, if_pos ⟨hf, hop⟩, ← encodeXY_mask_y, ← eq_encodeXY hf hn]

/-! ### What the decoder reads, family by family -/

theorem decode_of_family8 (hf : fieldF w = 0x8) : decode w = decodeFamily8 w := by
  rw [decode, hf]
  rfl

theorem decodeFamily8_shr (hn : fieldN w = 0x6) : decodeFamily8 w = .ok (.shr (fieldX w)) := by
  rw [decodeFamily8, hn]
  rfl

theorem decodeFamily8_shl (hn : fieldN w = 0xE) : decodeFamily8 w = .ok (.shl (fieldX w)) := by
  rw [decodeFamily8, hn]
  rfl

theorem decodeFamily0_ok (h : decodeFamily0 w = .ok i) : w = encode i := by
  unfold decodeFamily0 at h
  split at h
  case isTrue hw => cases h; exact hw
  case isFalse =>
    split at h
    case isTrue hw => cases h; exact hw
    case isFalse => cases h

theorem decodeFamily8_ok (hf : fieldF w = 0x8) (h : decodeFamily8 w = .ok i) :
    withoutDontCare w = encode i := by
  unfold decodeFamily8 at h
  split at h
  -- SHR and SHL: Y is free
  case h_7 hn | h_9 hn =>
    cases h
    exact withoutDontCare_of_shift hf (BitVec.eq_of_toNat_eq hn) (by decide)
  case h_10 => cases h
  -- the other operations: Y is an operand
  all_goals
    rename_i hn
    cases h
    exact withoutDontCare_of_op_ne hf (BitVec.eq_of_toNat_eq hn) (by decide)

theorem decodeFamilyE_ok (hf : fieldF w = 0xE) (h : decodeFamilyE w = .ok i) : w = encode i := by
  unfold decodeFamilyE at h
  split at h
  case h_3 => cases h
  all_goals
    rename_i hk
    cases h
    exact eq_encodeXK hf (BitVec.eq_of_toNat_eq hk)

theorem decodeFamilyF_ok (hf : fieldF w = 0xF) (h : decodeFamilyF w = .ok i) : w = encode i := by
  unfold decodeFamilyF at h
  split at h
  case h_10 => cases h
  all_goals
    rename_i hk
    cases h
    exact eq_encodeXK hf (BitVec.eq_of_toNat_eq hk)

/-- Outside family 8 no bit of a legal word is ignored. -/
theorem eq_encode_of_decode (hf8 : fieldF w ≠ 0x8) (h : decode w = .ok i) : w = encode i := by
  unfold decode at h
  split at h
  case h_1 => exact decodeFamily0_ok h
  -- format A
  case h_2 hf | h_3 hf | h_11 hf | h_12 hf =>
    cases h
    exact eq_encodeA (BitVec.eq_of_toNat_eq hf)
  -- format XK
  case h_4 hf | h_5 hf | h_7 hf | h_8 hf | h_13 hf =>
    cases h
    exact eq_encodeXK (BitVec.eq_of_toNat_eq hf) rfl
  -- format XY with N = 0
  case h_6 hf | h_10 hf =>
    split at h
    case isTrue hn => cases h; exact eq_encodeXY (BitVec.eq_of_toNat_eq hf) hn
    case isFalse => cases h
  case h_9 hf => exact absurd (BitVec.eq_of_toNat_eq hf) hf8
  -- format XYN
  case h_14 hf =>
    cases h
    exact eq_encodeXY (BitVec.eq_of_toNat_eq hf) rfl
  case h_15 hf => exact decodeFamilyE_ok (BitVec.eq_of_toNat_eq hf) h
  case h_16 =>
    have hf : (fieldF w).toNat = 15 := by
      have hlt := (fieldF w).isLt
      simp only [imp_false] at *
      omega
    exact decodeFamilyF_ok (BitVec.eq_of_toNat_eq hf) h

end Sys2Proof.Machine

open Sys2Proof Sys2Proof.Machine in
/-- Settles O47: every field of a legal word is tested by the decoder or kept as an operand, but for the
field Y of the two shifts, which `withoutDontCare` clears as `encode` does. -/
theorem onlyShiftYIsIgnored : Obligations.OnlyShiftYIsIgnored := by
  refine ⟨fun w i h => ?_, fun x y => ⟨?_, ?_⟩⟩
  · by_cases hf : fieldF w = 0x8
    · exact decodeFamily8_ok hf (decode_of_family8 hf ▸ h)
    · rw [withoutDontCare_of_family_ne hf]
      exact eq_encode_of_decode hf h
  · rw [decode_of_family8 (fieldF_encodeXY ..), decodeFamily8_shr (fieldN_encodeXY ..), fieldX_encodeXY]
  · rw [decode_of_family8 (fieldF_encodeXY ..), decodeFamily8_shl (fieldN_encodeXY ..), fieldX_encodeXY]

/-! # O31, O43 and O45: the Step cycle (40_step_cycle.md R110, R116, R118) -/

namespace Sys2Proof.Machine

/-! ### The fetch at a pc of at most 0xFFE -/

theorem fetch_fits {s : State} (hpc : s.pc.toNat ≤ 0xFFE) : s.pc.toNat + 2 ≤ memSize :=
  Nat.add_le_add_right hpc 2

/-- Where the fetched word is no instruction, the Step returns UnknownOpcode with the raw word (R118). -/
theorem step_unknownOpcode {s : State} {e : DecodeError} (hfits : s.pc.toNat + 2 ≤ memSize)
    (he : decode (s.mem.readWord s.pc.toNat) = .error e) :
    step s = .fault (.unknownOpcode (s.mem.readWord s.pc.toNat)) := by
  rw [step, withFetched, withAccess_ok _ (.inr hfits), he]
  rfl

/-- The Step operation whose Step is an error returns it and keeps the state (R241). -/
theorem block_step_of_fault {b : Block} {f : Fault} (hf : step b.state = .fault f) :
    b.apply .step = (.error f, { state := b.state, phase := .started }) := by
  rw [Block.apply, Block.step, hf]

/-! ### What an instruction may do to the timers, the keys and the dirty flag -/

/-- What R116 leaves an instruction to do between `s` and `t`: only LD DT, Vx writes DT and only
LD ST, Vx writes ST, each a copy of VX; the input latch is kept and the dirty flag is not cleared. -/
structure RespectsHostParts (i : Instr) (s t : State) : Prop where
  dt : t.dt = s.dt ∨ ∃ x, i = .ldDTVx x ∧ t.dt = s.v[x]
  st : t.st = s.st ∨ ∃ x, i = .ldSTVx x ∧ t.st = s.v[x]
  key : t.key = s.key
  dirty : s.dirty = true → t.dirty = true

theorem RespectsHostParts.of_unchanged {i : Instr} {s t : State} (hdt : t.dt = s.dt)
    (hst : t.st = s.st) (hkey : t.key = s.key) (hdirty : t.dirty = s.dirty) :
    RespectsHostParts i s t :=
  ⟨.inl hdt, .inl hst, hkey, hdirty.trans⟩

theorem skipIf_respectsHostParts (i : Instr) (c : Bool) (s : State) :
    RespectsHostParts i s (skipIf c s) :=
  .of_unchanged (skipIf_dt s c) (skipIf_st s c) (skipIf_key s c) (skipIf_dirty s c)

theorem execLdVxK_respectsHostParts {x : Reg} {s t : State} (h : execLdVxK x s = .next t) :
    RespectsHostParts (.ldVxK x) s t := by
  unfold execLdVxK at h
  split at h
  all_goals
    cases h
    exact .of_unchanged rfl rfl rfl rfl

/-- Every instruction that completes stays within R116. -/
theorem exec_respectsHostParts {i : Instr} {s t : State} (h : exec i s = .next t) :
    RespectsHostParts i s t := by
  cases i with
  -- the writers of a timer and of dirty
  | ldDTVx x =>
    cases h
    exact ⟨.inr ⟨x, rfl, rfl⟩, .inl rfl, rfl, id⟩
  | ldSTVx x =>
    cases h
    exact ⟨.inl rfl, .inr ⟨x, rfl, rfl⟩, rfl, id⟩
  | cls =>
    cases h
    exact ⟨.inl rfl, .inl rfl, rfl, fun _ => rfl⟩
  | drw _ _ _ =>
    obtain ⟨-, h⟩ := withAccess_next h
    cases h
    exact ⟨.inl rfl, .inl rfl, rfl, fun _ => rfl⟩
  -- the call stack
  | ret =>
    rw [exec, execRet] at h
    obtain ⟨_, h⟩ := withPop_next h
    cases h
    exact .of_unchanged rfl rfl rfl rfl
  | call _ =>
    rw [exec, execCall] at h
    obtain ⟨_, h⟩ := withPush_next h
    cases h
    exact .of_unchanged rfl rfl rfl rfl
  -- the skips
  | seImm _ _ | sneImm _ _ | seReg _ _ | sneReg _ _ =>
    cases h
    exact skipIf_respectsHostParts ..
  | skp _ | sknp _ =>
    simp only [exec, execSkp, execSknp] at h
    obtain ⟨_, h⟩ := withKey_next h
    cases h
    exact skipIf_respectsHostParts ..
  -- memory through I, and the key wait
  | ldB _ | ldMemVx _ | ldVxMem _ =>
    obtain ⟨-, h⟩ := withAccess_next h
    cases h
    exact .of_unchanged rfl rfl rfl rfl
  | ldVxK _ => exact execLdVxK_respectsHostParts h
  -- one next state, made by writes of other fields
  | jp _ | jpV0 _ | ldImm _ _ | addImm _ _ | ldReg _ _ | or _ _ | and _ _ | xor _ _ | addReg _ _
  | sub _ _ | shr _ | subn _ _ | shl _ | ldI _ | rnd _ _ | ldVxDT _ | addI _ | ldF _ =>
    cases h
    exact .of_unchanged rfl rfl rfl rfl

end Sys2Proof.Machine

open Sys2Proof Sys2Proof.Machine in
/-- Settles O31: a Step that completes is the fetched instruction's execution, and every instruction
stays within R116. -/
theorem stepNeverTicksOrPressesKeys : Obligations.StepNeverTicksOrPressesKeys := by
  intro s t h
  obtain ⟨-, i, hi, hexec⟩ := step_next h
  obtain ⟨hdt, hst, hkey, hdirty⟩ := exec_respectsHostParts hexec
  refine ⟨hdt.imp_right ?_, hst.imp_right ?_, hkey, hdirty⟩
  · rintro ⟨x, rfl, hx⟩
    exact ⟨x, hi, hx⟩
  · rintro ⟨x, rfl, hx⟩
    exact ⟨x, hi, hx⟩

open Sys2Proof Sys2Proof.Machine in
/-- Settles O43: the two bytes at pc are the word that the fetch reads, and the Step is `withFetched`
around `exec` alone. -/
theorem stepRunsTheDecodedInstruction : Obligations.StepRunsTheDecodedInstruction :=
  fun _ _ hpc hi => withFetched_ok (fetch_fits hpc) hi

open Sys2Proof Sys2Proof.Machine in
/-- Settles O45: the error keeps the state, so a further Step fetches the same word and returns the same
error. -/
theorem unknownOpcodeIsReturned : Obligations.UnknownOpcodeIsReturned := by
  intro b e hpc he
  have hstep := step_unknownOpcode (fetch_fits hpc) he
  have hfirst := block_step_of_fault hstep
  have hsecond := block_step_of_fault (b := { state := b.state, phase := .started }) hstep
  rw [hfirst, hsecond]
  exact ⟨rfl, rfl, rfl⟩

/-! # O1 to O6 and O58: control flow (41_control_flow.md) and the halt (60_exceptions.md R270)

Every control instruction ends in a write of pc, which no part of a frame sees; RET and CALL replace the
call stack before it. That a RET undoes a CALL is read off the two instructions' own statements, and a
jump to the pc it was fetched from writes the pc that is there. -/

namespace Sys2Proof.Machine

/-! ### Frames -/

theorem Frame.refl (ps : List Part) (s : State) : Frame ps s s := by
  intro p _
  cases p with
  | stack => exact ⟨rfl, rfl⟩
  | regs | memory => exact fun _ => rfl
  | index | delay | sound | keys | display | dirty | random => rfl

/-- The program counter is in no part, so a write of it extends every frame. -/
theorem Frame.setPc {ps : List Part} {s t : State} (h : Frame ps s t) (w : Word) :
    Frame ps s (t.setPc w) := by
  intro p hp
  have hsame : p.same s t := h p hp
  cases p <;> exact hsame

/-- Replacing the call stack and its pointer changes no other part of the state. -/
theorem frame_setStack (s : State) (k : Vector Word 16) (n : Fin 17) :
    Frame [.stack] s (s.setStack k n) := by
  intro p hp
  cases p with
  | stack => exact absurd List.mem_cons_self hp
  | regs | memory => exact fun _ => rfl
  | index | delay | sound | keys | display | dirty | random => rfl

theorem frame_skipIf (c : Bool) (s : State) : Frame [] s (skipIf c s) := by
  cases c <;> exact (Frame.refl [] s).setPc _

/-! ### Targets -/

theorem immAddr_toNat (nnn : Addr12) : (immAddr nnn).toNat = nnn.toNat :=
  BitVec.toNat_setWidth_of_le (by decide)

theorem byteToWord_toNat (b : Byte) : (byteToWord b).toNat = b.toNat :=
  BitVec.toNat_setWidth_of_le (by decide)

theorem setPc_self (s : State) : s.setPc s.pc = s := rfl

/-! ### RET and CALL, case by case -/

theorem exec_ret_of_empty {s : State} (hempty : s.sp.val = 0) :
    exec .ret s = .fault .stackUnderflow :=
  (withPop_fault s _ (by omega) : execRet s = _)

theorem exec_ret_of_pos {s : State} (hpos : 0 < s.sp.val) :
    exec .ret s = .next ((s.setStack s.stack ⟨s.sp.val - 1, by omega⟩).setPc
      ((s.stack[s.sp.val - 1]'(by omega)) + 2)) :=
  (withPop_ok s _ hpos : execRet s = _)

theorem exec_call_of_full {nnn : Addr12} {s : State} (hfull : s.sp.val = 16) :
    exec (.call nnn) s = .fault .stackOverflow :=
  (withPush_fault s s.pc _ (by omega) : execCall nnn s = _)

theorem exec_call_of_room {nnn : Addr12} {s : State} (hroom : s.sp.val < 16) :
    exec (.call nnn) s = .next ((s.setStack (s.stack.set s.sp.val s.pc hroom)
      ⟨s.sp.val + 1, by omega⟩).setPc (immAddr nnn)) :=
  (withPush_ok s s.pc _ hroom : execCall nnn s = _)

/-- A CALL that completes found room on the stack. -/
theorem sp_lt_of_exec_call {nnn : Addr12} {s t : State} (h : exec (.call nnn) s = .next t) :
    s.sp.val < 16 := by
  rw [exec, execCall] at h
  exact (withPush_next h).1

/-! ### The jump, as it is fetched -/

theorem decode_encode_jp (nnn : Addr12) : decode (encode (.jp nnn)) = .ok (.jp nnn) := by
  rw [encode, decode, fieldF_encodeA, fieldNNN_encodeA]
  rfl

end Sys2Proof.Machine

open Sys2Proof Sys2Proof.Machine in
/-- Settles O1: RET is `withPop` around a write of pc. -/
theorem returnPopsCallAddress : Obligations.ReturnPopsCallAddress := by
  refine fun s => ⟨exec_ret_of_empty, fun hpos => ?_⟩
  exact ⟨_, exec_ret_of_pos hpos, rfl, rfl, rfl, Frame.setPc (frame_setStack s _ _) _⟩

open Sys2Proof Sys2Proof.Machine in
/-- Settles O2: CALL is `withPush` of the own pc around a write of pc. -/
theorem callStacksItsOwnAddress : Obligations.CallStacksItsOwnAddress := by
  refine fun nnn s => ⟨exec_call_of_full, fun hroom => ?_⟩
  refine ⟨_, exec_call_of_room hroom, ?_, fun k hk => ?_, rfl, immAddr_toNat nnn,
    Frame.setPc (frame_setStack s _ _) _⟩
  · exact Vector.getElem_set_self hroom
  · exact Vector.getElem_set_ne hroom k.isLt hk.symm

open Sys2Proof Sys2Proof.Machine in
/-- Settles O6: the CALL left its own address in the entry just below the SP that the RET finds. -/
theorem returnUndoesCall : Obligations.ReturnUndoesCall := by
  intro nnn s t u hcall hsp hbelow
  have hroom := sp_lt_of_exec_call hcall
  obtain ⟨t', ht', htop, -, hsp', -⟩ := (callStacksItsOwnAddress nnn s).2 hroom
  obtain rfl : t' = t := Host.Outcome.next.inj (ht'.symm.trans hcall)
  have husp : u.sp.val = s.sp.val + 1 := by rw [hsp, hsp']
  obtain ⟨r, hret, hrsp, hrpc, -⟩ := (returnPopsCallAddress u).2 (by omega)
  refine ⟨r, hret, ?_, Fin.ext (by omega)⟩
  have hentry : u.stack[s.sp.val] = s.pc := (hbelow ⟨s.sp.val, hroom⟩ (by simp [hsp'])).trans htop
  simpa only [husp, Nat.add_sub_cancel, hentry] using hrpc

open Sys2Proof Sys2Proof.Machine in
/-- Settles O3: both jumps are one write of pc. -/
theorem jumpsSetOnlyPc : Obligations.JumpsSetOnlyPc := by
  refine fun nnn s => ⟨⟨_, rfl, immAddr_toNat nnn, (Frame.refl [] s).setPc _⟩,
    ⟨_, rfl, ?_, (Frame.refl [] s).setPc _⟩⟩
  rw [State.setPc_pc, BitVec.toNat_add, immAddr_toNat, byteToWord_toNat, State.reg_eq]

open Sys2Proof Sys2Proof.Machine in
/-- Settles O4: both skips are `skipIf` on their condition. -/
theorem immediateSkipsMovePcOnly : Obligations.ImmediateSkipsMovePcOnly := by
  refine fun x nn s => ⟨⟨_, rfl, ?_, frame_skipIf _ s⟩, ⟨_, rfl, ?_, frame_skipIf _ s⟩⟩
  · simp only [skipIf_pc, State.reg_eq, beq_iff_eq]
  · simp only [skipIf_pc, State.reg_eq, bne_iff_ne]

open Sys2Proof Sys2Proof.Machine in
/-- Settles O5: both skips are `skipIf` on their condition. -/
theorem registerSkipsMovePcOnly : Obligations.RegisterSkipsMovePcOnly := by
  refine fun x y s => ⟨⟨_, rfl, ?_, frame_skipIf _ s⟩, ⟨_, rfl, ?_, frame_skipIf _ s⟩⟩
  · simp only [skipIf_pc, State.reg_eq, beq_iff_eq]
  · simp only [skipIf_pc, State.reg_eq, bne_iff_ne]

open Sys2Proof Sys2Proof.Machine in
/-- Settles O58: the Step fetches the jump to H and writes H to pc, where it is already. -/
theorem haltIsStuck : Obligations.HaltIsStuck := by
  rintro h s ⟨hpc, hle, hword⟩
  have haddr : s.pc.toNat = h.toNat := by rw [hpc, immAddr_toNat]
  have hjump : decode (s.mem.readWord s.pc.toNat) = .ok (.jp h) := by
    rw [haddr, hword]
    exact decode_encode_jp h
  calc step s = exec (.jp h) s := withFetched_ok (fetch_fits (haddr ▸ hle)) hjump
    _ = .next (s.setPc s.pc) := by rw [hpc]; rfl
    _ = .next s := congrArg Host.Outcome.next (setPc_self s)

/-! # O8 to O12: register arithmetic and logic (42_alu.md)

Every one of these instructions is a write of VX, or of VX and then of VF, followed by pc + 2. The two
shapes are described once; what is left of each instruction is the value of its byte and of its flag. -/

namespace Sys2Proof.Machine

/-! ### Writes of the registers -/

/-- Replacing the registers changes no other part of the state. -/
theorem frame_setRegs (s : State) (v : Vector Byte 16) : Frame [.regs] s (s.setRegs v) := by
  intro p hp
  cases p with
  | regs => exact absurd List.mem_cons_self hp
  | stack => exact ⟨rfl, rfl⟩
  | memory => exact fun _ => rfl
  | index | delay | sound | keys | display | dirty | random => rfl

theorem regsSameBut_setV (s : State) (x : Reg) (b : Byte) : RegsSameBut [x] s (s.setV x b) := by
  intro k hk
  rw [List.mem_singleton] at hk
  rw [State.setV_v, regs_set, if_neg hk]

theorem regsSameBut_setResultFlag (s : State) (x : Reg) (r : Byte) (f : Bool) :
    RegsSameBut [x, vf] s (s.setResultFlag x r f) := by
  intro k hk
  rw [List.mem_cons, List.mem_singleton, not_or] at hk
  obtain ⟨hx, hflag⟩ := hk
  rw [State.setResultFlag_v, regs_set_result_flag, if_neg hflag, if_neg hx]

/-- The instructions that write VX alone. -/
theorem setV_advance_spec (s : State) (x : Reg) (b : Byte) :
    let t := (s.setV x b).advance 2
    t.v[x] = b ∧ t.pc = s.pc + 2 ∧ RegsSameBut [x] s t ∧ Frame [.regs] s t := by
  intro t
  refine ⟨?_, rfl, regsSameBut_setV s x b, (frame_setRegs s _).setPc _⟩
  rw [State.advance_v, State.setV_v, regs_set, if_pos rfl]

/-- The instructions that write a result to VX and then a flag to VF, which stands with X = F (D4). -/
theorem setResultFlag_advance_spec (s : State) (x : Reg) (r : Byte) (f : Bool) :
    let t := (s.setResultFlag x r f).advance 2
    (x ≠ vf → t.v[x] = r) ∧ t.v[vf] = flagByte f ∧
      t.pc = s.pc + 2 ∧ RegsSameBut [x, vf] s t ∧ Frame [.regs] s t := by
  intro t
  refine ⟨fun hx => ?_, ?_, rfl, regsSameBut_setResultFlag s x r f, (frame_setRegs s _).setPc _⟩
  · rw [State.advance_v, State.setResultFlag_v, regs_set_result_flag, if_neg hx, if_pos rfl]
  · rw [State.advance_v, State.setResultFlag_v, regs_set_result_flag, if_pos rfl]

/-! ### Results and flags as numbers -/

theorem flagByte_carryOut (a b : Byte) :
    flagByte (carryOut a b) = if a.toNat + b.toNat > 255 then 1 else 0 := by
  simp only [flagByte, carryOut, decide_eq_true_eq]

theorem flagByte_noBorrow (d e : Byte) :
    flagByte (noBorrow d e) = if e.toNat ≤ d.toNat then 1 else 0 := by
  simp only [flagByte, noBorrow, decide_eq_true_eq]

theorem flagByte_toNat (f : Bool) : (flagByte f).toNat = f.toNat := by
  cases f <;> rfl

theorem flagByte_lowBit_toNat (a : Byte) : (flagByte (lowBit a)).toNat = a.toNat % 2 := by
  rw [flagByte_toNat, lowBit, BitVec.getLsbD, Nat.toNat_testBit, pow_zero, Nat.div_one]

theorem flagByte_highBit_toNat (a : Byte) : (flagByte (highBit a)).toNat = a.toNat / 128 := by
  have ha : a.toNat < 256 := a.isLt
  rw [flagByte_toNat, highBit, BitVec.getLsbD, Nat.toNat_testBit]
  omega

/-- The wrapped difference of two bytes is their integer difference mod 256 (R150). -/
theorem byte_sub_toNat (d e : Byte) : ((d - e).toNat : Int) = (d.toNat - e.toNat : Int) % 256 := by
  have he : e.toNat < 256 := e.isLt
  rw [BitVec.toNat_sub]
  omega

theorem byte_shiftRight_one_toNat (a : Byte) : (a >>> 1).toNat = a.toNat / 2 := by
  rw [BitVec.toNat_ushiftRight, Nat.shiftRight_one]

theorem byte_shiftLeft_one_toNat (a : Byte) : (a <<< 1).toNat = 2 * a.toNat % 256 := by
  rw [BitVec.toNat_shiftLeft, Nat.shiftLeft_eq, pow_one, mul_comm]

/-! ### SUB and SUBN -/

/-- A subtraction of `e` from `d` into VX, whichever registers the two come from. -/
theorem subtraction_spec (s : State) (x : Reg) (d e : Byte) :
    let t := (s.setResultFlag x (d - e) (noBorrow d e)).advance 2
    (x ≠ vf → ((t.v[x]).toNat : Int) = (d.toNat - e.toNat : Int) % 256) ∧
      t.v[vf] = (if e.toNat ≤ d.toNat then 1 else 0) ∧
      t.pc = s.pc + 2 ∧ RegsSameBut [x, vf] s t ∧ Frame [.regs] s t := by
  obtain ⟨hresult, hflag, hrest⟩ := setResultFlag_advance_spec s x (d - e) (noBorrow d e)
  refine ⟨fun hx => ?_, hflag.trans (flagByte_noBorrow d e), hrest⟩
  rw [hresult hx, byte_sub_toNat]

end Sys2Proof.Machine

open Sys2Proof Sys2Proof.Machine in
/-- Settles O10: the byte sum wraps, and the flag written after it is the carry. -/
theorem addReportsCarry : Obligations.AddReportsCarry := by
  intro x y s
  obtain ⟨hresult, hflag, hrest⟩ :=
    setResultFlag_advance_spec s x (s.v[x] + s.v[y]) (carryOut s.v[x] s.v[y])
  refine ⟨_, rfl, fun hx => ?_, hflag.trans (flagByte_carryOut _ _), hrest⟩
  exact (congrArg BitVec.toNat (hresult hx)).trans (BitVec.toNat_add _ _)

open Sys2Proof Sys2Proof.Machine in
/-- Settles O11: SUBN is SUB with minuend and subtrahend exchanged. -/
theorem subtractionsReportNoBorrow : Obligations.SubtractionsReportNoBorrow :=
  fun x y s => ⟨⟨_, rfl, subtraction_spec s x s.v[x] s.v[y]⟩,
    ⟨_, rfl, subtraction_spec s x s.v[y] s.v[x]⟩⟩

open Sys2Proof Sys2Proof.Machine in
/-- Settles O12: the bit shifted out is taken from VX before the write, bit 0 of SHR and bit 7 of SHL. -/
theorem shiftsReportBitShiftedOut : Obligations.ShiftsReportBitShiftedOut := by
  intro x s
  constructor
  · obtain ⟨hresult, hflag, hrest⟩ :=
      setResultFlag_advance_spec s x (s.v[x] >>> 1) (lowBit s.v[x])
    refine ⟨_, rfl, fun hx => ?_, ?_, hrest⟩
    · exact (congrArg BitVec.toNat (hresult hx)).trans (byte_shiftRight_one_toNat _)
    · exact (congrArg BitVec.toNat hflag).trans (flagByte_lowBit_toNat _)
  · obtain ⟨hresult, hflag, hrest⟩ :=
      setResultFlag_advance_spec s x (s.v[x] <<< 1) (highBit s.v[x])
    refine ⟨_, rfl, fun hx => ?_, ?_, hrest⟩
    · exact (congrArg BitVec.toNat (hresult hx)).trans (byte_shiftLeft_one_toNat _)
    · exact (congrArg BitVec.toNat hflag).trans (flagByte_highBit_toNat _)

open Sys2Proof Sys2Proof.Machine in
/-- Settles O8: both are one write of VX, of NN and of the wrapped sum. -/
theorem immediateLoadAndAddWriteVx : Obligations.ImmediateLoadAndAddWriteVx := by
  refine fun x nn s => ⟨⟨_, rfl, setV_advance_spec s x nn⟩, ?_⟩
  obtain ⟨hresult, hrest⟩ := setV_advance_spec s x (s.v[x] + nn)
  exact ⟨_, rfl, (congrArg BitVec.toNat hresult).trans (BitVec.toNat_add _ _), hrest⟩

open Sys2Proof Sys2Proof.Machine in
/-- Settles O9: all four are one write of VX. -/
theorem moveAndLogicWriteVx : Obligations.MoveAndLogicWriteVx :=
  fun x y s => ⟨⟨_, rfl, setV_advance_spec s x s.v[y]⟩,
    ⟨_, rfl, setV_advance_spec s x (s.v[x] ||| s.v[y])⟩,
    ⟨_, rfl, setV_advance_spec s x (s.v[x] &&& s.v[y])⟩,
    ⟨_, rfl, setV_advance_spec s x (s.v[x] ^^^ s.v[y])⟩⟩

/-! # O13: the index register (43_index_memory.md R180)

The instruction is a write of I followed by pc + 2. -/

namespace Sys2Proof.Machine

/-- Replacing the index register changes no other part of the state. -/
theorem frame_setI (s : State) (w : Word) : Frame [.index] s (s.setI w) := by
  intro p hp
  cases p with
  | index => exact absurd List.mem_cons_self hp
  | stack => exact ⟨rfl, rfl⟩
  | regs | memory => exact fun _ => rfl
  | delay | sound | keys | display | dirty | random => rfl

/-- The instructions that write the index register alone. -/
theorem setI_advance_spec (s : State) (w : Word) :
    let t := (s.setI w).advance 2
    t.i = w ∧ t.pc = s.pc + 2 ∧ Frame [.index] s t :=
  ⟨rfl, rfl, (frame_setI s w).setPc _⟩

end Sys2Proof.Machine

open Sys2Proof Sys2Proof.Machine in
/-- Settles O13: one write of I, and extending NNN to 16 bits keeps its value. -/
theorem loadIndexSetsI : Obligations.LoadIndexSetsI := by
  intro nnn s
  obtain ⟨hindex, hrest⟩ := setI_advance_spec s (immAddr nnn)
  exact ⟨_, rfl, (congrArg BitVec.toNat hindex).trans (immAddr_toNat nnn), hrest⟩

/-! # O22, O23 and O26: the display (44_display.md)

A DRW that passes its bounds check has one next state, `State.drawn`, whose pixels and VF are given by
the mask of the sprite (`drawSprite_draws`). A second draw of the same sprite inverts the same pixels
again, and it turns off exactly those that the first turned on. -/

namespace Sys2Proof.Machine

/-! ### Frames of the writes of CLS and DRW -/

section
variable {ps : List Part} {s t : State}

theorem Frame.setDisp (h : Frame ps s t) (hps : .display ∈ ps) (d : Display) :
    Frame ps s (t.setDisp d) := by
  intro p hp
  have hsame : p.same s t := h p hp
  cases p with
  | display => exact absurd hps hp
  | _ => exact hsame

theorem Frame.setDirty (h : Frame ps s t) (hps : .dirty ∈ ps) (b : Bool) :
    Frame ps s (t.setDirty b) := by
  intro p hp
  have hsame : p.same s t := h p hp
  cases p with
  | dirty => exact absurd hps hp
  | _ => exact hsame

theorem Frame.setRegs (h : Frame ps s t) (hps : .regs ∈ ps) (v : Vector Byte 16) :
    Frame ps s (t.setRegs v) := by
  intro p hp
  have hsame : p.same s t := h p hp
  cases p with
  | regs => exact absurd hps hp
  | _ => exact hsame

end

/-! ### Displays, masks and flags -/

theorem Display.ext_pixel {d e : Display} (h : ∀ px py, d.pixel px py = e.pixel px py) : d = e :=
  Vector.ext fun i hi => Vector.ext fun j hj => h ⟨i, hi⟩ ⟨j, hj⟩

/-- The mask depends on memory only through the bytes it reads as. -/
theorem spriteMask_congr {m m' : Memory} (h : ∀ a : Nat, m.read a = m'.read a) :
    spriteMask m = spriteMask m' := by
  funext a x0 y0 n px py
  simp only [spriteMask, h]

theorem flagByte_eq_one_iff (f : Bool) : flagByte f = 1 ↔ f = true := by
  cases f <;> decide

theorem flagByte_eq_zero_iff (f : Bool) : flagByte f = 0 ↔ f = false := by
  cases f <;> decide

/-! ### The next state of DRW -/

/-- The pixels under a 1 bit of the sprite that DRW draws in this state. -/
def State.sprite (s : State) (x y : Reg) (n : Rows) : Fin 64 → Fin 32 → Bool :=
  spriteMask s.mem s.i.toNat s.v[x] s.v[y] n.val

/-- Display and collision flag after the drawing of DRW. -/
def State.canvas (s : State) (x y : Reg) (n : Rows) : Canvas :=
  drawSprite s.mem s.i.toNat s.v[x] s.v[y] n.val (s.disp, false)

/-- The next state of a DRW whose sprite lies in memory. -/
def State.drawn (s : State) (x y : Reg) (n : Rows) : State :=
  (s.setCanvas (s.canvas x y n)).advance 2

section
variable {x y : Reg} {n : Rows} {s t : State}

theorem exec_drw_ok (h : n.val = 0 ∨ s.i.toNat + n.val ≤ memSize) :
    exec (.drw x y n) s = .next (s.drawn x y n) :=
  (withAccess_ok _ h : execDrw x y n s = _)

theorem exec_drw_next (h : exec (.drw x y n) s = .next t) : t = s.drawn x y n :=
  (Host.Outcome.next.inj (withAccess_next h).2).symm

variable (x y n s)

/-- The drawing XORs the sprite into the display (R202). -/
theorem drawn_pixel (px : Fin 64) (py : Fin 32) :
    (s.drawn x y n).disp.pixel px py = (s.disp.pixel px py ^^ s.sprite x y n px py) :=
  (drawSprite_draws s.mem s.i.toNat s.v[x] s.v[y] n.val (by omega) (s.disp, false)).1 px py

/-- The collision flag of the drawing: a 1 bit of the sprite fell on a set pixel (R205). -/
theorem canvas_collision_iff :
    (s.canvas x y n).2 = true ↔
      ∃ px py, s.disp.pixel px py = true ∧ s.sprite x y n px py = true := by
  have hflag := (drawSprite_draws s.mem s.i.toNat s.v[x] s.v[y] n.val (by omega) (s.disp, false)).2
  refine hflag.trans ?_
  simp only [Bool.false_eq_true, false_or, and_comm, State.sprite]

theorem drawn_vf : (s.drawn x y n).v[vf] = flagByte (s.canvas x y n).2 := by
  rw [State.drawn, State.advance_v, State.setCanvas_v, regs_set, if_pos rfl]

theorem drawn_vf_eq_one_iff :
    (s.drawn x y n).v[vf] = 1 ↔
      ∃ px py, s.disp.pixel px py = true ∧ s.sprite x y n px py = true := by
  rw [drawn_vf, flagByte_eq_one_iff, canvas_collision_iff]

theorem drawn_vf_eq_zero_iff :
    (s.drawn x y n).v[vf] = 0 ↔
      ∀ px py, s.disp.pixel px py = true → s.sprite x y n px py = false := by
  rw [drawn_vf, flagByte_eq_zero_iff, ← Bool.not_eq_true, canvas_collision_iff]
  simp only [not_exists, not_and, Bool.not_eq_true]

theorem drawn_vf_zero_or_one : (s.drawn x y n).v[vf] = 0 ∨ (s.drawn x y n).v[vf] = 1 := by
  rw [drawn_vf, flagByte_eq_zero_iff, flagByte_eq_one_iff]
  exact (Bool.eq_false_or_eq_true _).symm

/-- What DRW writes beside pixels and VF, and what it leaves alone. -/
theorem drawn_rest :
    (s.drawn x y n).dirty = true ∧ (s.drawn x y n).pc = s.pc + 2 ∧
      RegsSameBut [vf] s (s.drawn x y n) ∧ Frame [.regs, .display, .dirty] s (s.drawn x y n) := by
  refine ⟨rfl, rfl, regsSameBut_setV s vf _, ?_⟩
  exact ((((Frame.refl _ s).setDisp (by decide) _).setRegs (by decide) _).setDirty
    (by decide) _).setPc _

end

/-! ### The same sprite drawn again -/

section
variable {x y : Reg} {n : Rows} {s u : State}

theorem sprite_congr (hi : u.i = s.i) (hx : u.v[x] = s.v[x]) (hy : u.v[y] = s.v[y])
    (hmem : ∀ a : Nat, u.mem.read a = s.mem.read a) : u.sprite x y n = s.sprite x y n := by
  rw [State.sprite, State.sprite, spriteMask_congr hmem, hi, hx, hy]

variable (hdisp : u.disp = (s.drawn x y n).disp) (hsprite : u.sprite x y n = s.sprite x y n)
include hdisp hsprite

theorem drawn_twice_disp : (u.drawn x y n).disp = s.disp := by
  refine Display.ext_pixel fun px py => ?_
  calc (u.drawn x y n).disp.pixel px py
      = ((s.disp.pixel px py ^^ s.sprite x y n px py) ^^ s.sprite x y n px py) := by
        rw [drawn_pixel, hdisp, drawn_pixel, hsprite]
    _ = s.disp.pixel px py := by rw [Bool.xor_assoc, Bool.xor_self, Bool.xor_false]

/-- A pixel of the sprite is 1 between the two draws exactly if it was 0 before them. -/
theorem drawn_twice_vf_eq_one_iff :
    (u.drawn x y n).v[vf] = 1 ↔
      ∃ px py, s.disp.pixel px py = false ∧ s.sprite x y n px py = true := by
  rw [drawn_vf_eq_one_iff, hdisp, hsprite]
  refine exists_congr fun px => exists_congr fun py => and_congr_left fun hbit => ?_
  rw [drawn_pixel, hbit, Bool.xor_true, Bool.not_eq_true']

end

end Sys2Proof.Machine

open Sys2Proof Sys2Proof.Machine in
/-- Settles O23: the next state is `State.drawn`, with the pixels and the flag of the mask. -/
theorem drawXorsSpriteAndReportsCollision : Obligations.DrawXorsSpriteAndReportsCollision := by
  intro x y n s hbounds
  have hfits : n.val = 0 ∨ s.i.toNat + n.val ≤ memSize := by
    unfold memSize
    omega
  exact ⟨s.drawn x y n, exec_drw_ok hfits, drawn_pixel x y n s, (drawn_vf_eq_one_iff x y n s).2,
    (drawn_vf_eq_zero_iff x y n s).2, drawn_rest x y n s⟩

open Sys2Proof Sys2Proof.Machine in
/-- Settles O26: both next states are drawings of one mask, and XOR with it is its own inverse. -/
theorem doubleDrawRestoresDisplay : Obligations.DoubleDrawRestoresDisplay := by
  intro x y n s t u r hfirst hdisp hi hx hy hmem hsecond
  obtain rfl := exec_drw_next hfirst
  obtain rfl := exec_drw_next hsecond
  have hsprite : u.sprite x y n = s.sprite x y n := sprite_congr hi hx hy hmem
  exact ⟨drawn_twice_disp hdisp hsprite, drawn_twice_vf_eq_one_iff hdisp hsprite,
    drawn_vf_zero_or_one x y n u⟩

open Sys2Proof Sys2Proof.Machine in
/-- Settles O22: CLS writes the blank display, dirty and pc. -/
theorem clearScreenZeroesDisplay : Obligations.ClearScreenZeroesDisplay := by
  refine fun s => ⟨_, rfl, pixel_blank, rfl, rfl, ?_⟩
  exact (((Frame.refl _ s).setDisp (by decide) _).setDirty (by decide) _).setPc _

/-! # O29, O30 and O32: the timers and the key wait (45_timers_input_random.md)

The timer transfers are one write followed by pc + 2. The key wait has two outcomes, by what the scan of
R227 finds: the state as it was, or a write of VX followed by pc + 2. In the first the state is a fixed
point of the Step, which any number of Steps keeps. -/

namespace Sys2Proof.Machine

/-! ### Frames of the timer writes -/

/-- Replacing the delay timer changes no other part of the state. -/
theorem frame_setDT (s : State) (b : Byte) : Frame [.delay] s (s.setDT b) := by
  intro p hp
  cases p with
  | delay => exact absurd List.mem_cons_self hp
  | stack => exact ⟨rfl, rfl⟩
  | regs | memory => exact fun _ => rfl
  | index | sound | keys | display | dirty | random => rfl

/-- Replacing the sound timer changes no other part of the state. -/
theorem frame_setST (s : State) (b : Byte) : Frame [.sound] s (s.setST b) := by
  intro p hp
  cases p with
  | sound => exact absurd List.mem_cons_self hp
  | stack => exact ⟨rfl, rfl⟩
  | regs | memory => exact fun _ => rfl
  | index | delay | keys | display | dirty | random => rfl

/-! ### The key wait, case by case -/

theorem exec_ldVxK_of_released (x : Reg) {s : State} (h : ∀ k : Fin 16, s.key[k] = false) :
    exec (.ldVxK x) s = .next s := by
  have hscan : scanKeys s.key 16 = none :=
    (scanKeys_none_iff s.key 16 le_rfl).2 fun k _ => h k
  rw [exec, execLdVxK, hscan]

theorem exec_ldVxK_of_highest (x : Reg) {s : State} {k : Fin 16} (hk : s.key[k] = true)
    (hhigher : ∀ j : Fin 16, k < j → s.key[j] = false) :
    exec (.ldVxK x) s = .next ((s.setV x (BitVec.ofNat 8 k.val)).advance 2) := by
  have hscan : scanKeys s.key 16 = some k.val :=
    (scanKeys_some_iff s.key 16 le_rfl k).2 ⟨k.isLt, hk, fun j hj _ => hhigher j hj⟩
  rw [exec, execLdVxK, hscan]

/-- The number of a key fits in a register. -/
theorem keyByte_toNat (k : Fin 16) : (BitVec.ofNat 8 k.val).toNat = k.val :=
  (BitVec.toNat_ofNat k.val 8).trans (Nat.mod_eq_of_lt (by omega))

/-! ### Fixed points of the Step -/

/-- A state that a step answers with itself is kept by any number of steps. -/
theorem core_run_of_step_self {M : Host.Core} {s : M.State} (h : M.step s = .next s) (n : Nat) :
    M.run n s = .next s := by
  induction n with
  | zero => rfl
  | succ n ih =>
    rw [Host.Core.run, h]
    exact ih

end Sys2Proof.Machine

open Sys2Proof Sys2Proof.Machine in
/-- Settles O30: the scan finds no key, or exactly the pressed key above which none is pressed. -/
theorem keyWaitTakesHighestKey : Obligations.KeyWaitTakesHighestKey := by
  refine fun x s => ⟨exec_ldVxK_of_released x, fun k hk hhigher => ?_⟩
  obtain ⟨hresult, hrest⟩ := setV_advance_spec s x (BitVec.ofNat 8 k.val)
  exact ⟨_, exec_ldVxK_of_highest x hk hhigher,
    (congrArg BitVec.toNat hresult).trans (keyByte_toNat k), hrest⟩

open Sys2Proof Sys2Proof.Machine in
/-- Settles O32: the Step runs the key wait, which answers the state itself, and so does every Step
after it. -/
theorem keyWaitSuspends : Obligations.KeyWaitSuspends := by
  intro x s n hpc hwait hreleased
  have hstep : step s = .next s :=
    (withFetched_ok (fetch_fits hpc) hwait).trans (exec_ldVxK_of_released x hreleased)
  exact core_run_of_step_self (M := core) hstep n

open Sys2Proof Sys2Proof.Machine in
/-- Settles O29: the three are one write, of VX, of DT and of ST. -/
theorem timerTransfersCopyTheByte : Obligations.TimerTransfersCopyTheByte :=
  fun x s => ⟨⟨_, rfl, setV_advance_spec s x s.dt⟩,
    ⟨_, rfl, rfl, rfl, (frame_setDT s s.v[x]).setPc _⟩,
    ⟨_, rfl, rfl, rfl, (frame_setST s s.v[x]).setPc _⟩⟩

/-! # O50, O51, O53 and O59: the host's operations and the halt (60_exceptions.md R260 to R270)

An operation of the host is described by its result and the frame of the state it leaves. At the halt each
of them keeps pc and memory, and with them the halt, so frames compose along a whole run. -/

namespace Sys2Proof.Machine

/-! ### Frames compose -/

section
variable {p : Part} {ps qs : List Part} {s t u : State}

theorem Part.same_trans (h : p.same s t) (h' : p.same t u) : p.same s u := by
  cases p with
  | stack => exact ⟨h'.1.trans h.1, h'.2.trans h.2⟩
  | regs | memory => exact fun k => (h' k).trans (h k)
  | index | delay | sound | keys | display | dirty | random => exact Eq.trans h' h

theorem Frame.trans (h : Frame ps s t) (h' : Frame ps t u) : Frame ps s u :=
  fun p hp => Part.same_trans (h p hp) (h' p hp)

theorem Frame.mono (h : Frame ps s t) (hsub : ps ⊆ qs) : Frame qs s t :=
  fun p hp => h p fun hmem => hp (hsub hmem)

end

/-! ### Frames of the host's writes -/

/-- Replacing the input latch changes no other part of the state. -/
theorem frame_setKeys (s : State) (k : Vector Bool 16) : Frame [.keys] s (s.setKeys k) := by
  intro p hp
  cases p with
  | keys => exact absurd List.mem_cons_self hp
  | stack => exact ⟨rfl, rfl⟩
  | regs | memory => exact fun _ => rfl
  | index | delay | sound | display | dirty | random => rfl

theorem frame_clearDirty (s : State) : Frame [.dirty] s (clearDirty s) :=
  (Frame.refl [.dirty] s).setDirty List.mem_cons_self false

theorem frame_tickTimers (s : State) : Frame [.delay, .sound] s (tickTimers s) :=
  ((frame_setDT s _).mono (by simp)).trans ((frame_setST _ _).mono (by simp))

/-! ### The timer tick -/

/-- One tick of a timer: 1 less, and the floor at 0 is that of subtraction on `Nat` (R260). -/
theorem timerTick_toNat (b : Byte) : (timerTick b).toNat = b.toNat - 1 := by
  unfold timerTick
  split
  case isTrue hzero => rw [hzero]; rfl
  case isFalse hpos => exact BitVec.toNat_sub_of_le (by bv_omega)

/-! ### Runs -/

/-- An operation that does not end the run is followed by the run of the rest. -/
theorem run_cons_of_goesOn {op : HostOp} {b : Block} (ops : List HostOp)
    (h : (b.apply op).1.endsRun = false) :
    Block.run (op :: ops) b =
      ((b.apply op).1 :: (Block.run ops (b.apply op).2).1, (Block.run ops (b.apply op).2).2) := by
  rw [Block.run, h]
  rfl

/-- A run is clean if every operation keeps an invariant under which none of the run's operations
ends it. -/
theorem run_clean {P : Block → Prop} (hkeep : ∀ (op : HostOp) (b : Block), P b → P (b.apply op).2)
    (ops : List HostOp) (hgo : ∀ op ∈ ops, ∀ b : Block, P b → (b.apply op).1.endsRun = false) :
    ∀ b : Block, P b → CleanRun (Block.run ops b).1 := by
  induction ops with
  | nil => exact fun b _ r hr => absurd hr List.not_mem_nil
  | cons op ops ih =>
    intro b hb
    have hfirst := hgo op List.mem_cons_self b hb
    have hrest := ih (fun o ho => hgo o (List.mem_cons_of_mem op ho)) _ (hkeep op b hb)
    rw [run_cons_of_goesOn ops hfirst]
    exact List.forall_mem_cons.2 ⟨hfirst, hrest⟩

/-! ### The operations at the halt -/

section
variable {h : Addr12} {b : Block}

/-- The Step operation whose Step completes returns Ok and starts the block. -/
theorem block_step_of_next {t : State} (hstep : step b.state = .next t) :
    b.apply .step = (.ok, { state := t, phase := .started }) := by
  rw [Block.apply, Block.step, hstep]

theorem block_step_of_atHalt (hb : AtHalt h b.state) :
    b.apply .step = (.ok, { state := b.state, phase := .started }) :=
  block_step_of_next (haltIsStuck h b.state hb)

/-- A block at a halt is no longer as constructed, so a load leaves it as it was. -/
theorem block_load_of_atHalt (bytes : List Byte) (hb : AtHalt h b.state) :
    (b.apply (.load bytes)).2 = b := by
  obtain ⟨-, hreset, -⟩ | ⟨-, hload⟩ | ⟨-, hload⟩ := block_load_cases bytes b
  · exact absurd (hreset ▸ hb) (reset_not_atHalt h)
  · exact congrArg Prod.snd hload
  · exact congrArg Prod.snd hload

/-- The halt is a matter of pc and memory alone. -/
theorem AtHalt.of_pc_mem {s t : State} (hs : AtHalt h s) (hpc : t.pc = s.pc) (hmem : t.mem = s.mem) :
    AtHalt h t := by
  rwa [AtHalt, hpc, hmem]

/-- What the host may still change once the block is at the halt. -/
def hostParts : List Part := [.delay, .sound, .keys, .dirty]

/-- Every operation at the halt stays there and changes the host's parts alone. -/
theorem apply_of_atHalt (op : HostOp) (hb : AtHalt h b.state) :
    AtHalt h (b.apply op).2.state ∧ Frame hostParts b.state (b.apply op).2.state := by
  cases op with
  | step =>
    rw [block_step_of_atHalt hb]
    exact ⟨hb, Frame.refl _ _⟩
  | load bytes =>
    rw [block_load_of_atHalt bytes hb]
    exact ⟨hb, Frame.refl _ _⟩
  | queryDirty | queryPixel _ _ => exact ⟨hb, Frame.refl _ _⟩
  | tick => exact ⟨hb.of_pc_mem rfl rfl, (frame_tickTimers _).mono (by simp [hostParts])⟩
  | setKey k pressed => exact ⟨hb.of_pc_mem rfl rfl, (frame_setKeys _ _).mono (by simp [hostParts])⟩
  | clearDirty => exact ⟨hb.of_pc_mem rfl rfl, (frame_clearDirty _).mono (by simp [hostParts])⟩

/-- At the halt no operation but a load can end the run. -/
theorem apply_goesOn_of_atHalt {op : HostOp} (hop : ∀ bytes, op ≠ .load bytes)
    (hb : AtHalt h b.state) : (b.apply op).1.endsRun = false := by
  cases op with
  | step => rw [block_step_of_atHalt hb]; rfl
  | load bytes => exact absurd rfl (hop bytes)
  | tick | setKey _ _ | queryDirty | queryPixel _ _ | clearDirty => rfl

end

end Sys2Proof.Machine

open Sys2Proof Sys2Proof.Machine in
/-- Settles O50: the tick is `timerTick` on both timers. -/
theorem tickLowersTimersToZero : Obligations.TickLowersTimersToZero :=
  fun b => ⟨rfl, timerTick_toNat b.state.dt, timerTick_toNat b.state.st, rfl, frame_tickTimers b.state⟩

open Sys2Proof Sys2Proof.Machine in
/-- Settles O51, by induction on the number of ticks, the first of which is O50's. -/
theorem ticksAccumulate : Obligations.TicksAccumulate := by
  intro k
  induction k with
  | zero => exact fun b => ⟨rfl, rfl⟩
  | succ k ih =>
    intro b
    obtain ⟨-, hdt, hst, -⟩ := tickLowersTimersToZero b
    obtain ⟨hdts, hsts⟩ := ih (b.apply .tick).2
    rw [List.replicate_succ, run_cons_of_goesOn _ rfl]
    exact ⟨by rw [hdts, hdt]; omega, by rw [hsts, hst]; omega⟩

open Sys2Proof Sys2Proof.Machine in
/-- Settles O53: the queries answer a field and hand the block back; the clear is one write of dirty. -/
theorem frameQueryAndDirtyClear : Obligations.FrameQueryAndDirtyClear :=
  fun b _ _ => ⟨rfl, rfl, rfl, rfl, rfl, frame_clearDirty b.state⟩

open Sys2Proof Sys2Proof.Machine in
/-- Settles O59: to be at the halt with the frame from the start of the run is kept by every operation,
and there only a load can end the run. -/
theorem runFromTheHaltStaysThere : Obligations.RunFromTheHaltStaysThere := by
  intro h b ops hb
  obtain ⟨hhalt, hframe⟩ := run_keeps
    (P := fun c => AtHalt h c.state ∧ Frame hostParts b.state c.state)
    (fun op c ⟨hc, hfrom⟩ => (apply_of_atHalt op hc).imp_right hfrom.trans) ops b ⟨hb, Frame.refl _ _⟩
  refine ⟨hhalt, hframe, fun hloads => ?_⟩
  have hnotLoad : ∀ op ∈ ops, ∀ bytes, op ≠ .load bytes := fun op hop bytes heq =>
    hloads bytes (heq ▸ hop)
  exact run_clean (P := fun c => AtHalt h c.state) (fun op c hc => (apply_of_atHalt op hc).1) ops
    (fun op hop c hc => apply_goesOn_of_atHalt (hnotLoad op hop) hc) b hb

/-! # O38, O39, O7, O21, O33 and O40: what an instruction that completes may write

One case analysis over the instructions, `exec_effect`, says which registers, which bytes of memory and
which control state (pc, the call stack) a completed instruction may have changed. The five statements are
read off it. -/

namespace Sys2Proof.Machine

/-! ### The effect of an instruction -/

/-- Where an instruction leads the program counter and the call stack: a few bytes on, to a target that
the fields of the instruction bound, or as CALL and RET do. -/
inductive ControlMove (i : Instr) (s t : State) : Prop
  | onward (d : Word) (hd : d.toNat ≤ 4) (hpc : t.pc = s.pc + d)
      (hstack : t.stack = s.stack ∧ t.sp = s.sp)
  | jump (hpc : t.pc.toNat ≤ 0x10FE) (hstack : t.stack = s.stack ∧ t.sp = s.sp)
  | call (nnn : Addr12) (hi : i = .call nnn) (hroom : s.sp.val < 16)
      (ht : t = (s.setStack (s.stack.set s.sp.val s.pc hroom) ⟨s.sp.val + 1, by omega⟩).setPc
        (immAddr nnn))
  | ret (hi : i = .ret) (hpos : 0 < s.sp.val)
      (ht : t = (s.setStack s.stack ⟨s.sp.val - 1, by omega⟩).setPc
        ((s.stack[s.sp.val - 1]'(by omega)) + 2))

/-- Memory after is memory before with bytes stored from I on, all of them at addresses that exist. -/
def StoredFromIndex (s t : State) : Prop :=
  ∃ bs : List Byte, s.i.toNat + bs.length ≤ memSize ∧ t.mem = s.mem.writeBytes s.i.toNat bs

/-- The instructions that store to memory (R56). -/
def IsStore (i : Instr) : Prop := (∃ x, i = .ldB x) ∨ ∃ x, i = .ldMemVx x

/-- What a completed instruction may have changed of the registers, memory and the control state. -/
structure ExecEffect (i : Instr) (s t : State) : Prop where
  regs : ∀ k : Reg, writesReg i k = false → t.v[k] = s.v[k]
  mem : t.mem = s.mem ∨ IsStore i ∧ StoredFromIndex s t
  control : ControlMove i s t

/-! ### The registers that a write leaves alone -/

section
variable {s : State} {x k : Reg} {r : Byte} {f : Bool}

theorem setV_unwritten (h : (k == x) = false) : (s.setV x r).v[k] = s.v[k] :=
  regsSameBut_setV s x r k (by simpa using h)

theorem setResultFlag_unwritten (h : (k == x || k == vf) = false) :
    (s.setResultFlag x r f).v[k] = s.v[k] :=
  regsSameBut_setResultFlag s x r f k (by simpa using h)

theorem loadRegs_unwritten {m : Memory} {a : Nat} {v : Vector Byte 16}
    (h : decide (k.val ≤ x.val) = false) : (loadRegs m a (blockLen x) v)[k] = v[k] := by
  rw [loadRegs_get, if_neg]
  simpa [blockLen] using h

end

/-! ### The effect of each shape of next state -/

section
variable {i : Instr} {s t : State}

theorem ControlMove.advance_two (hpc : t.pc = s.pc + 2) (hstack : t.stack = s.stack)
    (hsp : t.sp = s.sp) : ControlMove i s t :=
  .onward 2 (by decide) hpc ⟨hstack, hsp⟩

/-- A skip changes pc alone. -/
theorem skipIf_effect (i : Instr) (c : Bool) (s : State) : ExecEffect i s (skipIf c s) where
  regs _ _ := by rw [skipIf_v]
  mem := .inl (skipIf_mem s c)
  control := by
    refine .onward (if c then 4 else 2) ?_ ?_ ⟨skipIf_stack s c, skipIf_sp s c⟩
    · cases c <;> decide
    · cases c <;> rfl

theorem execLdVxK_effect {x : Reg} (h : execLdVxK x s = .next t) : ExecEffect (.ldVxK x) s t := by
  unfold execLdVxK at h
  split at h
  · cases h
    exact ⟨fun _ _ => rfl, .inl rfl, .onward 0 (by decide) (BitVec.add_zero _).symm ⟨rfl, rfl⟩⟩
  · cases h
    exact ⟨fun _ => setV_unwritten, .inl rfl, .advance_two rfl rfl rfl⟩

/-- The targets of the two jumps, NNN and NNN + V0. -/
theorem immAddr_le (nnn : Addr12) : (immAddr nnn).toNat ≤ 0x10FE := by
  rw [immAddr_toNat]
  omega

theorem immAddr_add_byte_le (nnn : Addr12) (b : Byte) :
    (immAddr nnn + byteToWord b).toNat ≤ 0x10FE := by
  rw [BitVec.toNat_add, immAddr_toNat, byteToWord_toNat]
  omega

/-- What every instruction that completes may have changed. -/
theorem exec_effect (h : exec i s = .next t) : ExecEffect i s t := by
  cases i with
  -- control flow
  | jp nnn =>
    cases h
    exact ⟨fun _ _ => rfl, .inl rfl, .jump (immAddr_le nnn) ⟨rfl, rfl⟩⟩
  | jpV0 nnn =>
    cases h
    exact ⟨fun _ _ => rfl, .inl rfl, .jump (immAddr_add_byte_le nnn _) ⟨rfl, rfl⟩⟩
  | ret =>
    rw [exec, execRet] at h
    obtain ⟨hpos, h⟩ := withPop_next h
    cases h
    exact ⟨fun _ _ => rfl, .inl rfl, .ret rfl hpos rfl⟩
  | call nnn =>
    rw [exec, execCall] at h
    obtain ⟨hroom, h⟩ := withPush_next h
    cases h
    exact ⟨fun _ _ => rfl, .inl rfl, .call nnn rfl hroom rfl⟩
  | seImm _ _ | sneImm _ _ | seReg _ _ | sneReg _ _ =>
    cases h
    exact skipIf_effect ..
  | skp _ | sknp _ =>
    simp only [exec, execSkp, execSknp] at h
    obtain ⟨_, h⟩ := withKey_next h
    cases h
    exact skipIf_effect ..
  -- the writers of VX, and of VX and VF
  | ldImm _ _ | addImm _ _ | ldReg _ _ | or _ _ | and _ _ | xor _ _ | rnd _ _ | ldVxDT _ =>
    cases h
    exact ⟨fun _ => setV_unwritten, .inl rfl, .advance_two rfl rfl rfl⟩
  | addReg _ _ | sub _ _ | shr _ | subn _ _ | shl _ =>
    cases h
    exact ⟨fun _ => setResultFlag_unwritten, .inl rfl, .advance_two rfl rfl rfl⟩
  | addI _ =>
    cases h
    exact ⟨fun _ => setV_unwritten, .inl rfl, .advance_two rfl rfl rfl⟩
  | drw _ _ _ =>
    obtain ⟨-, h⟩ := withAccess_next h
    cases h
    exact ⟨fun _ => setV_unwritten, .inl rfl, .advance_two rfl rfl rfl⟩
  | ldVxK _ => exact execLdVxK_effect h
  -- memory through I
  | ldVxMem _ =>
    obtain ⟨-, h⟩ := withAccess_next h
    cases h
    exact ⟨fun _ => loadRegs_unwritten, .inl rfl, .advance_two rfl rfl rfl⟩
  | ldB x =>
    obtain ⟨hfits, h⟩ := withAccess_next h
    cases h
    refine ⟨fun _ _ => rfl, .inr ⟨.inl ⟨x, rfl⟩, _, ?_, rfl⟩, .advance_two rfl rfl rfl⟩
    exact hfits.resolve_left (by decide)
  | ldMemVx x =>
    obtain ⟨hfits, h⟩ := withAccess_next h
    cases h
    refine ⟨fun _ _ => rfl, .inr ⟨.inr ⟨x, rfl⟩, _, ?_, rfl⟩, .advance_two rfl rfl rfl⟩
    rw [regBlock_length]
    exact hfits.resolve_left (Nat.succ_ne_zero _)
  -- one next state, made by writes of other fields
  | cls | ldI _ | ldDTVx _ | ldSTVx _ | ldF _ =>
    cases h
    exact ⟨fun _ _ => rfl, .inl rfl, .advance_two rfl rfl rfl⟩

end

/-! ### The two invariants, instruction by instruction -/

theorem exec_memoryCanonical {i : Instr} {s t : State} (hs : MemoryCanonical s)
    (h : exec i s = .next t) : MemoryCanonical t := by
  rw [MemoryCanonical]
  obtain hmem | ⟨-, bs, hfits, hmem⟩ := (exec_effect h).mem
  · rw [hmem]
    exact hs
  · rw [hmem]
    exact writeBytes_wf bs _ _ hfits hs

/-- The bounds on pc and the stack are kept by an instruction that was fetched, at a pc of at most
0xFFE (R26). -/
theorem ControlMove.bounded {i : Instr} {s t : State} (h : ControlMove i s t)
    (hs : ControlBounded s) (hpc : s.pc.toNat ≤ 0xFFE) : ControlBounded t := by
  obtain ⟨-, hentries⟩ := hs
  cases h with
  | onward d hd hpc' hstack =>
    obtain ⟨hstack, hsp⟩ := hstack
    rw [ControlBounded, hpc', hstack, hsp, BitVec.toNat_add]
    exact ⟨by omega, hentries⟩
  | jump hpc' hstack =>
    obtain ⟨hstack, hsp⟩ := hstack
    rw [ControlBounded, hstack, hsp]
    exact ⟨hpc', hentries⟩
  | call nnn hi hroom ht =>
    subst ht
    refine ⟨immAddr_le nnn, fun k hk => ?_⟩
    simp only [State.setPc_stack, State.setPc_sp, State.setStack_stack, State.setStack_sp,
      Fin.getElem_fin, Vector.getElem_set] at hk ⊢
    split
    · exact hpc
    · exact hentries k (by omega)
  | ret hi hpos ht =>
    subst ht
    have htop : (s.stack[s.sp.val - 1]'(by omega)).toNat ≤ 0xFFE :=
      hentries ⟨s.sp.val - 1, by omega⟩ (Nat.sub_one_lt_of_lt hpos)
    refine ⟨?_, fun k hk => hentries k (Nat.lt_of_lt_of_le hk (Nat.sub_le _ _))⟩
    rw [State.setPc_pc, BitVec.toNat_add, show (2 : Word).toNat = 2 from rfl]
    omega

theorem step_memoryCanonical {s t : State} (hs : MemoryCanonical s) (h : step s = .next t) :
    MemoryCanonical t := by
  obtain ⟨-, i, -, hexec⟩ := step_next h
  exact exec_memoryCanonical hs hexec

theorem step_controlBounded {s t : State} (hs : ControlBounded s) (h : step s = .next t) :
    ControlBounded t := by
  obtain ⟨hfits, i, -, hexec⟩ := step_next h
  exact (exec_effect hexec).control.bounded hs (Nat.le_of_add_le_add_right hfits)

/-- Construction starts at 0x200 with an empty stack (R40). -/
theorem reset_controlBounded : ControlBounded State.reset :=
  ⟨by decide, fun k hk => absurd hk (Nat.not_lt_zero k.val)⟩

end Sys2Proof.Machine

open Sys2Proof Sys2Proof.Machine in
/-- Settles O38: the fetch needs a pc of at most 0xFFE, from which a skip reaches 0x1002 at most; JP V0
gives the bound 0x10FE, and what CALL stacks is the pc it was fetched at. -/
theorem stepKeepsControlBounded : Obligations.StepKeepsControlBounded :=
  fun _ _ => step_controlBounded

open Sys2Proof Sys2Proof.Machine in
/-- Settles O39: an instruction keeps memory or stores bytes that passed the bounds check. -/
theorem stepKeepsMemoryCanonical : Obligations.StepKeepsMemoryCanonical :=
  fun _ _ => step_memoryCanonical

open Sys2Proof Sys2Proof.Machine in
/-- Settles O7: of the control moves only those of CALL and RET touch the stack. -/
theorem stackChangedByCallAndRetOnly : Obligations.StackChangedByCallAndRetOnly := by
  intro i s t h hret hcall
  cases (exec_effect h).control with
  | onward _ _ _ hstack => exact hstack
  | jump _ hstack => exact hstack
  | call nnn hi => exact absurd hi (hcall nnn)
  | ret hi => exact absurd hi hret

open Sys2Proof Sys2Proof.Machine in
/-- Settles O21: memory is kept, or the instruction is one of the two stores. -/
theorem memoryWrittenByStoresOnly : Obligations.MemoryWrittenByStoresOnly := by
  intro i s t h hldB hldMemVx a
  obtain hmem | ⟨⟨x, hx⟩ | ⟨x, hx⟩, -⟩ := (exec_effect h).mem
  · rw [hmem]
  · exact absurd hx (hldB x)
  · exact absurd hx (hldMemVx x)

open Sys2Proof Sys2Proof.Machine in
/-- Settles O33: the column of writes is the register part of the instruction's effect. -/
theorem onlyMappedRegistersAreWritten : Obligations.OnlyMappedRegistersAreWritten :=
  fun _ _ _ k h => (exec_effect h).regs k

open Sys2Proof Sys2Proof.Machine in
/-- Settles O40: nothing is stacked after construction, and memory lists nothing. -/
theorem resetMeetsTheInvariants : Obligations.ResetMeetsTheInvariants :=
  ⟨reset_controlBounded, reset_mem_wf⟩

/-! # O46: decoding undoes encoding (30_encoding.md R82, R85)

The decoder looks at one field after another, and each format gives its fields back from the word that it
builds. -/

namespace Sys2Proof.Machine

variable {w : Word}

theorem decode_of_familyE (hf : fieldF w = 0xE) : decode w = decodeFamilyE w := by
  rw [decode, hf]
  rfl

theorem decode_of_familyF (hf : fieldF w = 0xF) : decode w = decodeFamilyF w := by
  rw [decode, hf]
  rfl

/-- Decoding gives every instruction back from the word that `encode` makes of it. -/
theorem decode_encode (i : Instr) : decode (encode i) = .ok i := by
  cases i with
  | cls | ret => decide
  -- format A
  | jp _ | call _ | ldI _ | jpV0 _ =>
    rw [encode, decode, fieldF_encodeA, fieldNNN_encodeA]
    rfl
  -- format XK: the byte is an operand
  | seImm _ _ | sneImm _ _ | ldImm _ _ | addImm _ _ | rnd _ _ =>
    rw [encode, decode, fieldF_encodeXK, fieldX_encodeXK, fieldNN_encodeXK]
    rfl
  -- format XK: the byte tells the instructions of the family apart
  | skp _ | sknp _ =>
    rw [encode, decode_of_familyE (fieldF_encodeXK ..), decodeFamilyE, fieldNN_encodeXK, fieldX_encodeXK]
    rfl
  | ldVxDT _ | ldVxK _ | ldDTVx _ | ldSTVx _ | addI _ | ldF _ | ldB _ | ldMemVx _ | ldVxMem _ =>
    rw [encode, decode_of_familyF (fieldF_encodeXK ..), decodeFamilyF, fieldNN_encodeXK, fieldX_encodeXK]
    rfl
  -- formats XY and XYN
  | seReg _ _ | sneReg _ _ =>
    rw [encode, decode, fieldF_encodeXY, fieldN_encodeXY, fieldX_encodeXY, fieldY_encodeXY]
    rfl
  | ldReg _ _ | or _ _ | and _ _ | xor _ _ | addReg _ _ | sub _ _ | subn _ _ =>
    rw [encode, decode_of_family8 (fieldF_encodeXY ..), decodeFamily8, fieldN_encodeXY, fieldX_encodeXY,
      fieldY_encodeXY]
    rfl
  | shr _ | shl _ =>
    rw [encode, decode_of_family8 (fieldF_encodeXY ..), decodeFamily8, fieldN_encodeXY, fieldX_encodeXY]
    rfl
  | drw _ _ _ =>
    rw [encode, decode, fieldRows, fieldF_encodeXY, fieldN_encodeXY, fieldX_encodeXY, fieldY_encodeXY]
    rfl

end Sys2Proof.Machine

open Sys2Proof Sys2Proof.Machine in
/-- Settles O46: every format gives back the fields it was built from. -/
theorem decodeEncodeRoundTrip : Obligations.DecodeEncodeRoundTrip := decode_encode

/-! # O48 and O49: the illegal words and the sample words (30_encoding.md R87)

A row of the opcode table is a test of the same fields that the decoder and the list of illegal words
look at, so the three are compared family by family. -/

namespace Sys2Proof

/-! ### A row of the opcode table as a test of fields -/

section
variable {w m : Word}

theorem fieldF_and (hm : fieldF m = BitVec.allOnes 4) : fieldF (w &&& m) = fieldF w := by
  rw [fieldF, BitVec.extractLsb'_and, ← fieldF, ← fieldF, hm, BitVec.and_allOnes]

theorem fieldN_and (hm : fieldN m = BitVec.allOnes 4) : fieldN (w &&& m) = fieldN w := by
  rw [fieldN, BitVec.extractLsb'_and, ← fieldN, ← fieldN, hm, BitVec.and_allOnes]

theorem fieldNN_and (hm : fieldNN m = BitVec.allOnes 8) : fieldNN (w &&& m) = fieldNN w := by
  rw [fieldNN, BitVec.extractLsb'_and, ← fieldNN, ← fieldNN, hm, BitVec.and_allOnes]

end

section
variable {w p : Word}

theorem and_mask_family_eq_iff : w &&& 0xF000 = p &&& 0xF000 ↔ fieldF w = fieldF p := by
  constructor
  · intro h
    simpa only [fieldF_and (m := 0xF000) rfl] using congrArg fieldF h
  · intro h
    rw [← encodeA_fields w, ← encodeA_fields p, encodeA_mask, encodeA_mask, h]

theorem and_mask_n_eq_iff :
    w &&& 0xF00F = p &&& 0xF00F ↔ fieldF w = fieldF p ∧ fieldN w = fieldN p := by
  constructor
  · intro h
    exact ⟨by simpa only [fieldF_and (m := 0xF00F) rfl] using congrArg fieldF h,
      by simpa only [fieldN_and (m := 0xF00F) rfl] using congrArg fieldN h⟩
  · rintro ⟨hf, hn⟩
    rw [← encodeXY_fields w, ← encodeXY_fields p, encodeXY_mask_sub, encodeXY_mask_sub, hf, hn]

theorem and_mask_nn_eq_iff :
    w &&& 0xF0FF = p &&& 0xF0FF ↔ fieldF w = fieldF p ∧ fieldNN w = fieldNN p := by
  constructor
  · intro h
    exact ⟨by simpa only [fieldF_and (m := 0xF0FF) rfl] using congrArg fieldF h,
      by simpa only [fieldNN_and (m := 0xF0FF) rfl] using congrArg fieldNN h⟩
  · rintro ⟨hf, hnn⟩
    rw [← encodeXK_fields w, ← encodeXK_fields p, encodeXK_mask_sub, encodeXK_mask_sub, hf, hnn]

theorem and_mask_all_eq_iff : w &&& 0xFFFF = p &&& 0xFFFF ↔ fieldF w = fieldF p ∧ w = p := by
  rw [show (0xFFFF : Word) = BitVec.allOnes 16 from rfl, BitVec.and_allOnes, BitVec.and_allOnes]
  exact (and_iff_right_of_imp (congrArg fieldF)).symm

end

/-- The row's mask is one of the table's four, and the pattern has no bit outside it. -/
def OpcodeRow.Regular (r : OpcodeRow) : Prop :=
  (r.mask = 0xF000 ∨ r.mask = 0xF00F ∨ r.mask = 0xF0FF ∨ r.mask = 0xFFFF) ∧
    r.pattern &&& r.mask = r.pattern

theorem opcodeRows_regular : ∀ r ∈ opcodeRows, r.Regular := by
  unfold OpcodeRow.Regular
  decide

/-- The row's mask and pattern as a test of the fields of a word. -/
def OpcodeRow.matchesFields (r : OpcodeRow) (w : Word) : Bool :=
  fieldF w == fieldF r.pattern &&
    (if r.mask = 0xF000 then true
    else if r.mask = 0xF00F then fieldN w == fieldN r.pattern
    else if r.mask = 0xF0FF then fieldNN w == fieldNN r.pattern
    else w == r.pattern)

theorem accepts_eq_matchesFields {r : OpcodeRow} (hr : r.Regular) (w : Word) :
    r.accepts w = r.matchesFields w := by
  obtain ⟨hmask, hpattern⟩ := hr
  rw [Bool.eq_iff_iff, OpcodeRow.accepts, beq_iff_eq]
  conv_lhs => rw [← hpattern]
  obtain hm | hm | hm | hm := hmask
  · simp [OpcodeRow.matchesFields, hm, ← and_mask_family_eq_iff]
  · simp [OpcodeRow.matchesFields, hm, ← and_mask_n_eq_iff]
  · simp [OpcodeRow.matchesFields, hm, ← and_mask_nn_eq_iff]
  · simp [OpcodeRow.matchesFields, hm, ← and_mask_all_eq_iff]

theorem wordWellFormed_eq_matchesFields (w : Word) :
    wordWellFormed w = opcodeRows.any fun r => r.matchesFields w := by
  rw [wordWellFormed, Bool.eq_iff_iff, List.any_eq_true, List.any_eq_true]
  refine exists_congr fun r => and_congr_right fun hr => ?_
  rw [accepts_eq_matchesFields (opcodeRows_regular r hr)]

/-! ### The legal words, family by family -/

/-- The operations of family 8 are those that R87 does not list. -/
theorem family8_operations (n : BitVec 4) :
    n ∈ [0, 1, 2, 3, 4, 5, 6, 7, 14#4] ↔ n ∉ [8, 9, 10, 11, 12, 13, 15#4] := by
  revert n
  decide

theorem exists_family (w : Word) : ∃ k < 16, fieldF w = BitVec.ofNat 4 k :=
  ⟨(fieldF w).toNat, (fieldF w).isLt, by simp⟩

section
variable {w : Word}

/-- The rows of the table share out the words that are not listed as illegal. -/
theorem wordWellFormed_iff : wordWellFormed w = true ↔ Machine.illegalWord w = false := by
  rw [wordWellFormed_eq_matchesFields, opcodeRows, List.any_map, Machine.illegalWord]
  obtain ⟨k, hk, hf⟩ := exists_family w
  rw [fieldF] at hf
  -- the fields of the table's patterns are computed once, before the split into families
  simp [opcodeRepresentatives, Instr.row, OpcodeRow.matchesFields, fieldF, fieldN, fieldNN]
  interval_cases k
  on_goal 9 => -- family 8
    simpa [hf, fieldN] using family8_operations (fieldN w)
  all_goals simp [hf, or_iff_not_imp_left]

/-- What follows a test of the decoder is an instruction exactly if the test succeeds. -/
theorem exists_ok_of_test {c : Prop} [Decidable c] (i : Instr) (e : DecodeError) :
    (∃ j, (if c then Except.ok i else Except.error e) = .ok j) ↔ c := by
  by_cases hc : c <;> simp [hc]

theorem decodeFamily0_ok_iff : (∃ i, decodeFamily0 w = .ok i) ↔ w = 0x00E0 ∨ w = 0x00EE := by
  by_cases hcls : w = 0x00E0
  · simp [decodeFamily0, hcls]
  · rw [decodeFamily0, if_neg hcls, exists_ok_of_test, or_iff_right hcls]

theorem decodeFamily8_ok_iff :
    (∃ i, decodeFamily8 w = .ok i) ↔ fieldN w ∉ [8, 9, 10, 11, 12, 13, 15#4] := by
  rw [← family8_operations]
  unfold decodeFamily8
  split <;> simp_all [← BitVec.toNat_inj]

theorem decodeFamilyE_ok_iff : (∃ i, decodeFamilyE w = .ok i) ↔ fieldNN w ∈ [0x9E, 0xA1#8] := by
  unfold decodeFamilyE
  split <;> simp_all [← BitVec.toNat_inj]

theorem decodeFamilyF_ok_iff : (∃ i, decodeFamilyF w = .ok i) ↔
    fieldNN w ∈ [0x07, 0x0A, 0x15, 0x18, 0x1E, 0x29, 0x33, 0x55, 0x65#8] := by
  unfold decodeFamilyF
  split <;> simp_all [← BitVec.toNat_inj]

/-- The decoder gives an instruction for the words that are not listed as illegal. -/
theorem decode_ok_iff : (∃ i, decode w = .ok i) ↔ Machine.illegalWord w = false := by
  rw [decode, Machine.illegalWord]
  obtain ⟨k, hk, hf⟩ := exists_family w
  interval_cases k
  all_goals
    simp [hf, exists_ok_of_test, decodeFamily0_ok_iff, decodeFamily8_ok_iff, decodeFamilyE_ok_iff,
      decodeFamilyF_ok_iff, or_iff_not_imp_left]

/-- The decoder refuses the words that are listed as illegal, each by name. -/
theorem decode_unknownOpcode_iff :
    decode w = .error (.unknownOpcode w) ↔ Machine.illegalWord w = true := by
  rw [← Bool.not_eq_false, ← decode_ok_iff]
  cases h : decode w with
  | ok i => simp
  | error e => simp [decode_error h]

end

end Sys2Proof

open Sys2Proof Sys2Proof.Machine in
/-- Settles O48: decoder, table and list agree on the words of each family. -/
theorem decoderRefusesExactlyIllegalWords : Obligations.DecoderRefusesExactlyIllegalWords := by
  intro w
  refine ⟨decode_unknownOpcode_iff, decode_ok_iff, ?_⟩
  rw [Bool.eq_iff_iff, wordWellFormed_iff, Bool.not_eq_true']

open Sys2Proof Sys2Proof.Machine in
/-- Settles O49: the decoder run on each of the words. -/
theorem sampleWordsDecode : Obligations.SampleWordsDecode := by
  unfold Obligations.SampleWordsDecode
  decide

/-! # O34, O35 and O37: what an instruction may read, and what it may raise

The registers that the map does not list as read, and the position of the random sequence, can be replaced
before an instruction or after it (`exec_withInputs`): the registers that it writes come out the same, the
others are carried along. -/

namespace Sys2Proof.Machine

/-! ### Registers taken from two states -/

/-- The registers `u` where the instruction writes, `w` elsewhere. -/
def mergeWritten (i : Instr) (u w : Vector Byte 16) : Vector Byte 16 :=
  Vector.ofFn fun k => if writesReg i k then u[k] else w[k]

theorem mergeWritten_get (i : Instr) (u w : Vector Byte 16) (k : Reg) :
    (mergeWritten i u w)[k] = if writesReg i k then u[k] else w[k] := by
  simp [mergeWritten]

theorem regs_ext {u w : Vector Byte 16} (h : ∀ k : Reg, u[k] = w[k]) : u = w :=
  Vector.ext fun k hk => h ⟨k, hk⟩

section
variable {i : Instr} (u w : Vector Byte 16)

theorem mergeWritten_none (h : ∀ k, writesReg i k = false) : mergeWritten i u w = w := by
  refine regs_ext fun k => ?_
  rw [mergeWritten_get, h, if_neg Bool.false_ne_true]

theorem mergeWritten_set {x : Reg} (r : Byte) (h : ∀ k, writesReg i k = (k == x)) :
    mergeWritten i (u.set x r) w = w.set x r := by
  refine regs_ext fun k => ?_
  by_cases hk : k = x <;> simp only [mergeWritten_get, h, regs_set, hk, beq_iff_eq, if_true, if_false]

theorem mergeWritten_set_flag {x : Reg} (r f : Byte) (h : ∀ k, writesReg i k = (k == x || k == vf)) :
    mergeWritten i ((u.set x r).set vf f) w = (w.set x r).set vf f := by
  refine regs_ext fun k => ?_
  simp only [mergeWritten_get, h, regs_set_result_flag, Bool.or_eq_true, beq_iff_eq]
  by_cases hf : k = vf
  · simp only [hf, or_true, if_true]
  · simp only [hf, or_false, if_false]
    by_cases hx : k = x <;> simp only [hx, if_true, if_false]

theorem mergeWritten_loadRegs (x : Reg) (m : Memory) (a : Nat) :
    mergeWritten (.ldVxMem x) (loadRegs m a (blockLen x) u) w = loadRegs m a (blockLen x) w := by
  refine regs_ext fun k => ?_
  simp only [mergeWritten_get, loadRegs_get, writesReg, blockLen, Nat.lt_succ_iff, decide_eq_true_eq]
  by_cases hk : k.val ≤ x.val <;> simp only [hk, if_true, if_false]

end

/-! ### Replacing inputs -/

/-- The state with its registers replaced by `w` and its position in the random sequence moved by `p`. -/
def State.withInputs (w : Vector Byte 16) (p : Nat → Nat) (s : State) : State :=
  (s.setRegs w).setRndPos (p s.rndPos)

/-- The outcome with the registers that the instruction does not write replaced by those of `w`, and the
position moved by `p`. -/
def carryInputs (i : Instr) (w : Vector Byte 16) (p : Nat → Nat) : Outcome → Outcome :=
  mapNext fun t => t.withInputs (mergeWritten i t.v w) p

section
variable {i : Instr} {s : State} {w : Vector Byte 16} {p : Nat → Nat}

theorem carryInputs_of_none (h : ∀ k, writesReg i k = false) (o : Outcome) :
    carryInputs i w p o = mapNext (State.withInputs w p) o := by
  simp only [carryInputs, mergeWritten_none _ _ h]

/-- An instruction that writes VX alone, with a value that the replaced inputs do not change. -/
theorem exec_withInputs_of_setV {x : Reg} {r : State → Byte} (hwrites : ∀ k, writesReg i k = (k == x))
    (hexec : ∀ s, exec i s = .next ((s.setV x (r s)).advance 2)) (hr : r (s.withInputs w p) = r s) :
    exec i (s.withInputs w p) = carryInputs i w p (exec i s) := by
  rw [hexec, hexec, hr, carryInputs, mapNext_next, State.advance_v, State.setV_v,
    mergeWritten_set _ _ _ hwrites]
  rfl

/-- An instruction that writes VX and a flag, with values that the replaced inputs do not change. -/
theorem exec_withInputs_of_setResultFlag {x : Reg} {r : State → Byte} {f : State → Bool}
    (hwrites : ∀ k, writesReg i k = (k == x || k == vf))
    (hexec : ∀ s, exec i s = .next ((s.setResultFlag x (r s) (f s)).advance 2))
    (hr : r (s.withInputs w p) = r s) (hf : f (s.withInputs w p) = f s) :
    exec i (s.withInputs w p) = carryInputs i w p (exec i s) := by
  rw [hexec, hexec, hr, hf, carryInputs, mapNext_next, State.advance_v, State.setResultFlag_v,
    mergeWritten_set_flag _ _ _ _ hwrites]
  rfl

theorem skipIf_withInputs (c : Bool) (s : State) :
    skipIf c (s.withInputs w p) = (skipIf c s).withInputs w p := by
  cases c <;> rfl

theorem regBlock_congr {x : Reg} {t : State} (h : ∀ k : Reg, k.val ≤ x.val → t.v[k] = s.v[k]) :
    t.regBlock x = s.regBlock x := by
  refine List.ext_getElem (by rw [regBlock_length, regBlock_length]) fun k hk _ => ?_
  have hx : k ≤ x.val := Nat.lt_succ_iff.1 (hk.trans_eq (regBlock_length t x))
  have hk16 : k < 16 := Nat.lt_of_le_of_lt hx x.isLt
  rw [regBlock_get t x ⟨k, hk16⟩ hx, regBlock_get s x ⟨k, hk16⟩ hx]
  exact h ⟨k, hk16⟩ hx

/-- The key wait, which carries VX along as well when no key is pressed. -/
theorem execLdVxK_withInputs {x : Reg} (hx : w[x] = s.v[x]) :
    execLdVxK x (s.withInputs w p) = carryInputs (.ldVxK x) w p (execLdVxK x s) := by
  have hkey : (s.withInputs w p).key = s.key := rfl
  rw [execLdVxK, execLdVxK, hkey]
  cases scanKeys s.key 16 with
  | none =>
    have hmerge : mergeWritten (.ldVxK x) s.v w = w := by
      refine regs_ext fun k => ?_
      simp only [mergeWritten_get, writesReg, beq_iff_eq]
      split
      case isTrue hk => rw [hk, hx]
      case isFalse => rfl
    rw [carryInputs, mapNext_next, hmerge]
  | some k =>
    rw [carryInputs, mapNext_next, State.advance_v, State.setV_v, mergeWritten_set _ _ _ fun _ => rfl]
    rfl

/-- What the replaced inputs leave of an instruction: every one but the registers it reads, and but the
position that RND reads, can be replaced before the instruction or after it. -/
theorem exec_withInputs (hread : ∀ k, readsReg i k = true → w[k] = s.v[k])
    (hwait : ∀ x, i = .ldVxK x → w[x] = s.v[x]) (hrnd : ∀ x nn, i = .rnd x nn → p = id) :
    exec i (s.withInputs w p) = carryInputs i w p (exec i s) := by
  have hreg : ∀ k, readsReg i k = true → (s.withInputs w p).reg k = s.reg k := hread
  cases i with
  -- the writers of VX, and of VX and VF
  | ldImm _ _ | ldVxDT _ => exact exec_withInputs_of_setV (fun _ => rfl) (fun _ => rfl) rfl
  | addImm x _ =>
    refine exec_withInputs_of_setV (fun _ => rfl) (fun _ => rfl) ?_
    rw [hreg x (by simp [readsReg])]
  | ldReg _ y =>
    refine exec_withInputs_of_setV (fun _ => rfl) (fun _ => rfl) ?_
    rw [hreg y (by simp [readsReg])]
  | or x y | and x y | xor x y =>
    refine exec_withInputs_of_setV (fun _ => rfl) (fun _ => rfl) ?_
    rw [hreg x (by simp [readsReg]), hreg y (by simp [readsReg])]
  | addReg x y | sub x y | subn x y =>
    refine exec_withInputs_of_setResultFlag (fun _ => rfl) (fun _ => rfl) ?_ ?_
    all_goals rw [hreg x (by simp [readsReg]), hreg y (by simp [readsReg])]
  | shr x | shl x =>
    refine exec_withInputs_of_setResultFlag (fun _ => rfl) (fun _ => rfl) ?_ ?_
    all_goals rw [hreg x (by simp [readsReg])]
  | rnd x nn =>
    obtain rfl := hrnd x nn rfl
    have hmerge (u : Vector Byte 16) (r : Byte) : mergeWritten (.rnd x nn) (u.set x r) w = w.set x r :=
      mergeWritten_set u w r fun _ => rfl
    simp only [exec, execRnd, carryInputs, mapNext_next, State.advance_v, State.setRndPos_v,
      State.setV_v, hmerge]
    rfl
  | addI x =>
    have hmerge (u : Vector Byte 16) (r : Byte) : mergeWritten (.addI x) (u.set vf r) w = w.set vf r :=
      mergeWritten_set u w r fun _ => rfl
    simp only [exec, execAddI, hreg x (by simp [readsReg]), carryInputs, mapNext_next, State.advance_v,
      State.setFlag_v, State.setI_v, hmerge]
    rfl
  | drw x y n =>
    have hmerge (u : Vector Byte 16) (r : Byte) :
        mergeWritten (.drw x y n) (u.set vf r) w = w.set vf r :=
      mergeWritten_set u w r fun _ => rfl
    simp only [exec, execDrw, hreg x (by simp [readsReg]), hreg y (by simp [readsReg]), carryInputs,
      mapNext_withAccess, mapNext_next, State.advance_v, State.setCanvas_v, hmerge]
    rfl
  | ldVxK x => exact execLdVxK_withInputs (hwait x rfl)
  | ldVxMem x =>
    simp only [exec, execLdVxMem, carryInputs, mapNext_withAccess, mapNext_next, State.advance_v,
      State.setI_v, State.setRegs_v, mergeWritten_loadRegs]
    rfl
  -- the call stack
  | ret =>
    rw [carryInputs_of_none fun _ => rfl]
    simp only [exec, execRet, mapNext_withPop]
    rfl
  | call _ =>
    rw [carryInputs_of_none fun _ => rfl]
    simp only [exec, execCall, mapNext_withPush]
    rfl
  -- the skips
  | seImm x _ | sneImm x _ =>
    rw [carryInputs_of_none fun _ => rfl]
    simp only [exec, execSeImm, execSneImm, hreg x (by simp [readsReg]), skipIf_withInputs, mapNext_next]
  | seReg x y | sneReg x y =>
    rw [carryInputs_of_none fun _ => rfl]
    simp only [exec, execSeReg, execSneReg, hreg x (by simp [readsReg]), hreg y (by simp [readsReg]),
      skipIf_withInputs, mapNext_next]
  | skp x | sknp x =>
    rw [carryInputs_of_none fun _ => rfl]
    simp only [exec, execSkp, execSknp, hreg x (by simp [readsReg]), mapNext_withKey, mapNext_next,
      skipIf_withInputs]
    rfl
  -- the stores
  | ldB x =>
    rw [carryInputs_of_none fun _ => rfl]
    simp only [exec, execLdB, hreg x (by simp [readsReg]), mapNext_withAccess]
    rfl
  | ldMemVx x =>
    have hblock : (s.withInputs w p).regBlock x = s.regBlock x :=
      regBlock_congr fun k hk => hread k (decide_eq_true hk)
    rw [carryInputs_of_none fun _ => rfl]
    simp only [exec, execLdMemVx, hblock, mapNext_withAccess]
    rfl
  -- one next state, made by writes of other fields
  | jpV0 _ =>
    rw [carryInputs_of_none fun _ => rfl]
    simp only [exec, execJpV0, hreg 0 (by simp [readsReg])]
    rfl
  | ldDTVx x | ldSTVx x | ldF x =>
    rw [carryInputs_of_none fun _ => rfl]
    simp only [exec, execLdDTVx, execLdSTVx, execLdF, hreg x (by simp [readsReg])]
    rfl
  | cls | jp _ | ldI _ =>
    rw [carryInputs_of_none fun _ => rfl]
    rfl

/-- Where the replaced registers are known in the next state, they need no merge. -/
theorem carryInputs_eq_mapNext {o : Outcome} {g : State → State}
    (h : ∀ t, o = .next t → t.withInputs (mergeWritten i t.v w) p = g t) :
    carryInputs i w p o = mapNext g o := by
  cases o with
  | next t => exact congrArg Host.Outcome.next (h t rfl)
  | fault _ | refused _ => rfl

end

/-! ### The registers of a next state, one of them replaced -/

section
variable {i : Instr} {s t : State} {k : Reg} (b : Byte)

theorem mergeWritten_self (h : exec i s = .next t) : mergeWritten i t.v s.v = t.v := by
  refine regs_ext fun j => ?_
  rw [mergeWritten_get]
  split
  case isTrue => rfl
  case isFalse hj => exact ((exec_effect h).regs j (Bool.eq_false_of_not_eq_true hj)).symm

theorem mergeWritten_set_unwritten (h : exec i s = .next t) (hk : writesReg i k = false) :
    mergeWritten i t.v (s.v.set k b) = t.v.set k b := by
  refine regs_ext fun j => ?_
  conv_rhs => rw [← mergeWritten_self h]
  simp only [mergeWritten_get, regs_set]
  by_cases hj : j = k <;> simp only [hj, hk, Bool.false_eq_true, if_true, if_false]

theorem mergeWritten_set_written (h : exec i s = .next t) (hk : writesReg i k = true) :
    mergeWritten i t.v (s.v.set k b) = t.v := by
  refine regs_ext fun j => ?_
  conv_rhs => rw [← mergeWritten_self h]
  simp only [mergeWritten_get, regs_set]
  by_cases hj : j = k <;> simp only [hj, hk, if_true, if_false]

end

/-! ### The errors of an instruction -/

/-- The outcome is a next state, or a fault of those given. -/
def Raises (P : Fault → Prop) : Outcome → Prop
  | .next _ => True
  | .fault f => P f
  | .refused _ => False

section
variable {P : Fault → Prop}

theorem raises_withAccess {base len : Nat} {go : Outcome} (hP : ∀ a, 0xFFF < a → P (.boundsAddr a))
    (hgo : Raises P go) : Raises P (withAccess base len go) := by
  unfold withAccess
  split
  · exact hgo
  · exact hP _ (Nat.lt_of_lt_of_le (by decide) (le_max_right base memSize))

theorem raises_withKey {k : Byte} {go : Fin 16 → Outcome} (hP : 15 < k.toNat → P (.boundsKey k))
    (hgo : ∀ j, Raises P (go j)) : Raises P (withKey k go) := by
  unfold withKey
  split
  · exact hgo _
  · exact hP (by omega)

theorem raises_withPush {s : State} {w : Word} {go : State → Outcome} (hP : P .stackOverflow)
    (hgo : ∀ t, Raises P (go t)) : Raises P (withPush s w go) := by
  unfold withPush
  split
  · exact hgo _
  · exact hP

theorem raises_withPop {s : State} {go : Word → State → Outcome} (hP : P .stackUnderflow)
    (hgo : ∀ w t, Raises P (go w t)) : Raises P (withPop s go) := by
  unfold withPop
  split
  · exact hgo _ _
  · exact hP

end

/-- An instruction answers a next state or an error of its own kind (R242). -/
theorem exec_raises (i : Instr) (s : State) : Raises (mayRaise i) (exec i s) := by
  cases i with
  | ret =>
    rw [exec, execRet]
    exact raises_withPop rfl fun _ _ => trivial
  | call _ =>
    rw [exec, execCall]
    exact raises_withPush rfl fun _ => trivial
  | drw _ _ _ | ldB _ | ldMemVx _ | ldVxMem _ =>
    exact raises_withAccess (fun a ha => ⟨a, ha, rfl⟩) trivial
  | skp _ | sknp _ =>
    simp only [exec, execSkp, execSknp]
    exact raises_withKey (fun hk => ⟨_, hk, rfl⟩) fun _ => trivial
  | ldVxK x =>
    simp only [exec, execLdVxK]
    split <;> trivial
  | cls | jp _ | seImm _ _ | sneImm _ _ | seReg _ _ | ldImm _ _ | addImm _ _ | ldReg _ _ | or _ _
  | and _ _ | xor _ _ | addReg _ _ | sub _ _ | shr _ | subn _ _ | shl _ | sneReg _ _ | ldI _ | jpV0 _
  | rnd _ _ | ldVxDT _ | ldDTVx _ | ldSTVx _ | addI _ | ldF _ => trivial

end Sys2Proof.Machine

open Sys2Proof Sys2Proof.Machine in
/-- Settles O34: the register is replaced before the instruction or after it, and there it is overwritten
or carried along. -/
theorem unmappedRegistersAreNotRead : Obligations.UnmappedRegistersAreNotRead := by
  intro i s k b hread
  have hagree : ∀ j, j ≠ k → (s.v.set k b)[j] = s.v[j] := fun j hj => by rw [regs_set, if_neg hj]
  have hread' : ∀ j, readsReg i j = true → (s.v.set k b)[j] = s.v[j] := fun j hj =>
    hagree j fun e => by rw [e, hread] at hj; cases hj
  constructor
  · intro hk
    have hwait : ∀ x, i = .ldVxK x → (s.v.set k b)[x] = s.v[x] := by
      rintro x rfl
      exact hagree x fun e => by simp [writesReg, e] at hk
    have hexec := exec_withInputs (p := id) hread' hwait fun _ _ _ => rfl
    refine hexec.trans (carryInputs_eq_mapNext fun t ht => ?_)
    rw [mergeWritten_set_unwritten b ht hk]
    rfl
  · intro hk hnotWait
    have hexec := exec_withInputs (p := id) hread' (fun x hx => absurd hx (hnotWait x)) fun _ _ _ => rfl
    refine hexec.trans ((carryInputs_eq_mapNext (g := id) fun t ht => ?_).trans ?_)
    · rw [mergeWritten_set_written b ht hk]
      rfl
    · cases exec i s <;> rfl

open Sys2Proof Sys2Proof.Machine in
/-- Settles O35: only RND reads the position, so every other instruction carries it along. -/
theorem randomByteMattersToRndOnly : Obligations.RandomByteMattersToRndOnly := by
  intro i s n hrnd
  have hexec : exec i (s.withInputs s.v fun _ => n) = _ :=
    exec_withInputs (fun _ _ => rfl) (fun _ _ => rfl) fun x nn hi => absurd hi (hrnd x nn)
  refine hexec.trans (carryInputs_eq_mapNext fun t ht => ?_)
  rw [mergeWritten_self ht]
  rfl

open Sys2Proof Sys2Proof.Machine in
/-- Settles O37: every error comes from one of the shared checks. -/
theorem eachInstructionRaisesItsOwnError : Obligations.EachInstructionRaisesItsOwnError := by
  intro i s
  have h := exec_raises i s
  refine ⟨fun f hf => ?_, fun r hr => ?_⟩
  · rwa [hf] at h
  · rwa [hr] at h

/-! # O14 to O20: the index register and memory (43_index_memory.md R181 to R188, 20_memory.md R54)

Each of the three memory instructions is one bounds check around one next state, which the laws of
`writeBytes` and `loadRegs` describe. The block round trip and the fetch of stored bytes follow from the
statements about the block store and the block load. -/

namespace Sys2Proof.Machine

/-! ### Addresses, digits and counts as numbers -/

theorem blockIndex_toNat (x : Reg) : (blockIndex x).toNat = x.val + 1 := by
  rw [blockIndex, BitVec.toNat_ofNat, Nat.mod_eq_of_lt (by omega)]

/-- A quotient or remainder of a byte is a byte. -/
theorem byteOfNat_toNat {n : Nat} {b : Byte} (h : n ≤ b.toNat) : (BitVec.ofNat 8 n).toNat = n := by
  have hb := b.isLt
  rw [BitVec.toNat_ofNat, Nat.mod_eq_of_lt (by omega)]

theorem flagByte_indexOverflow (w : Word) (b : Byte) :
    flagByte (indexOverflow w b) = if w.toNat + b.toNat > 0xFFF then 1 else 0 := by
  simp only [flagByte, indexOverflow, decide_eq_true_eq]

/-! ### The memory instructions within bounds -/

section
variable {x : Reg} {s : State}

theorem exec_ldB_ok (h : s.i.toNat + 2 ≤ 0xFFF) :
    exec (.ldB x) s =
      .next ((s.setMem (s.mem.writeBytes s.i.toNat (bcdDigits s.v[x]))).advance 2) :=
  (withAccess_ok _ (.inr (Nat.succ_le_succ h)) : execLdB x s = _)

theorem exec_ldMemVx_ok (h : s.i.toNat + x.val ≤ 0xFFF) :
    exec (.ldMemVx x) s =
      .next (((s.setMem (s.mem.writeBytes s.i.toNat (s.regBlock x))).setI (blockIndex x)).advance 2) :=
  (withAccess_ok _ (.inr (Nat.succ_le_succ h)) : execLdMemVx x s = _)

theorem exec_ldVxMem_ok (h : s.i.toNat + x.val ≤ 0xFFF) :
    exec (.ldVxMem x) s = .next (((s.setRegs (loadRegs s.mem s.i.toNat (blockLen x) s.v)).setI
      (blockIndex x)).advance 2) :=
  (withAccess_ok _ (.inr (Nat.succ_le_succ h)) : execLdVxMem x s = _)

end

end Sys2Proof.Machine

open Sys2Proof Sys2Proof.Machine in
/-- Settles O14: one write of I, of an address that fits in 16 bits. -/
theorem fontPointerSetsI : Obligations.FontPointerSetsI := by
  intro x s
  obtain ⟨hindex, hrest⟩ := setI_advance_spec s (glyphAddr s.v[x])
  exact ⟨_, rfl, (congrArg BitVec.toNat hindex).trans (glyphAddr_toNat _), hrest⟩

open Sys2Proof Sys2Proof.Machine in
/-- Settles O15: a write of I and then of VF, both of the values before. -/
theorem indexAddReportsOverflow : Obligations.IndexAddReportsOverflow := by
  intro x s
  refine ⟨_, rfl, ?_, ?_, rfl, regsSameBut_setV s vf _, ?_⟩
  · rw [State.advance_i, State.setFlag_i, State.setI_i, BitVec.toNat_add, byteToWord_toNat, State.reg_eq]
  · rw [State.advance_v, State.setFlag_v, regs_set, if_pos rfl]
    exact flagByte_indexOverflow s.i s.v[x]
  · exact (((frame_setI s _).mono (by simp)).setRegs (by simp) _).setPc _

open Sys2Proof Sys2Proof.Machine in
/-- Settles O16: the three digits are one `writeBytes` at I. -/
theorem bcdStoresThreeDigits : Obligations.BcdStoresThreeDigits := by
  intro x s
  have hread (k : Nat) (hk : k < 3) :=
    read_writeBytes_inside s.mem (bcdDigits s.v[x]) (a := s.i.toNat) (k := k) hk
  refine ⟨fun hout => (withAccess_fault _ (by decide) (Nat.succ_lt_succ hout) : execLdB x s = _),
    fun hfits => ⟨_, exec_ldB_ok hfits, ?_, ?_, ?_,
      fun a ha => read_writeBytes_outside s.mem (bcdDigits s.v[x]) ha, rfl, (frame_setMem s _).setPc _⟩⟩
  · exact (congrArg BitVec.toNat (hread 0 (by decide))).trans (byteOfNat_toNat (b := s.v[x]) (by omega))
  · exact (congrArg BitVec.toNat (hread 1 (by decide))).trans (byteOfNat_toNat (b := s.v[x]) (by omega))
  · exact (congrArg BitVec.toNat (hread 2 (by decide))).trans (byteOfNat_toNat (b := s.v[x]) (by omega))

open Sys2Proof Sys2Proof.Machine in
/-- Settles O17: the block is one `writeBytes` at I, whose bytes are the registers in order. -/
theorem blockStoreWritesRegisters : Obligations.BlockStoreWritesRegisters := by
  intro x s
  refine ⟨fun hout => (withAccess_fault _ (Nat.succ_ne_zero _) (Nat.succ_lt_succ hout) :
      execLdMemVx x s = _),
    fun hfits => ⟨_, exec_ldMemVx_ok hfits, fun k hk => ?_, fun a ha => ?_, blockIndex_toNat x, rfl,
      ?_⟩⟩
  · have hlen : k.val < (s.regBlock x).length := by
      rw [regBlock_length]
      exact Nat.lt_succ_of_le hk
    exact (read_writeBytes_inside s.mem (s.regBlock x) hlen).trans (regBlock_get s x k hk)
  · refine read_writeBytes_outside s.mem (s.regBlock x) ?_
    rwa [regBlock_length]
  · exact (((frame_setMem s _).mono (by simp)).trans ((frame_setI _ _).mono (by simp))).setPc _

open Sys2Proof Sys2Proof.Machine in
/-- Settles O18: the registers after are those of `loadRegs`. -/
theorem blockLoadReadsRegisters : Obligations.BlockLoadReadsRegisters := by
  intro x s
  refine ⟨fun hout => (withAccess_fault _ (Nat.succ_ne_zero _) (Nat.succ_lt_succ hout) :
      execLdVxMem x s = _),
    fun hfits => ⟨_, exec_ldVxMem_ok hfits, fun k => ?_, blockIndex_toNat x, rfl, ?_⟩⟩
  · refine (loadRegs_get s.mem s.i.toNat (blockLen x) s.v k).trans ?_
    simp only [blockLen, Nat.lt_succ_iff]
  · exact (((frame_setRegs s _).mono (by simp)).trans ((frame_setI _ _).mono (by simp))).setPc _

namespace Sys2Proof.Machine

/-- What a block store that completes has done, from its own statement. -/
theorem exec_ldMemVx_next {x : Reg} {s t : State} (h : exec (.ldMemVx x) s = .next t) :
    s.i.toNat + x.val ≤ 0xFFF ∧ t.i.toNat = x.val + 1 ∧
      ∀ k : Reg, k.val ≤ x.val → t.mem.read (s.i.toNat + k.val) = s.v[k] := by
  obtain ⟨hout, hfits⟩ := blockStoreWritesRegisters x s
  have hle : s.i.toNat + x.val ≤ 0xFFF := by
    by_contra hlt
    rw [hout (by omega)] at h
    cases h
  obtain ⟨t', ht', hread, -, hindex, -⟩ := hfits hle
  obtain rfl : t' = t := Host.Outcome.next.inj (ht'.symm.trans h)
  exact ⟨hle, hindex, hread⟩

end Sys2Proof.Machine

open Sys2Proof Sys2Proof.Machine in
/-- Settles O19: the load reads, at the same addresses, the bytes that the store put there. -/
theorem blockLoadUndoesBlockStore : Obligations.BlockLoadUndoesBlockStore := by
  intro x s t u hstore hmem hindex
  obtain ⟨hfits, hti, hread⟩ := exec_ldMemVx_next hstore
  obtain ⟨r, hload, hregs, hri, -⟩ := (blockLoadReadsRegisters x u).2 (by rwa [hindex])
  refine ⟨r, hload, fun k hk => ?_, hti, hri⟩
  rw [hregs, if_pos hk, hmem, hindex, hread k hk]

open Sys2Proof Sys2Proof.Machine in
/-- Settles O20: the two bytes at the stored address are V0 and V1, so O43 runs what they decode to. -/
theorem storedBytesAreFetched : Obligations.StoredBytesAreFetched := by
  intro x s t u i hx hstore hmem hpc hdecode
  obtain ⟨hfits, -, hread⟩ := exec_ldMemVx_next hstore
  have hhigh : t.mem.read s.i.toNat = s.v[(0 : Reg)] := hread 0 (Nat.zero_le _)
  have hlow : t.mem.read (s.i.toNat + 1) = s.v[(1 : Reg)] := hread 1 hx
  refine stepRunsTheDecodedInstruction u i (by rw [hpc]; omega) ?_
  rwa [hmem, hpc, hhigh, hlow]

/-! # O24, O25, O27 and O28: drawing at the bounds, the random byte and the key skips -/

namespace Sys2Proof.Machine

/-- A write of the position in the random sequence extends a frame that lists that part. -/
theorem Frame.setRndPos {ps : List Part} {s t : State} (h : Frame ps s t) (hps : .random ∈ ps) (n : Nat) :
    Frame ps s (t.setRndPos n) := by
  intro p hp
  have hsame : p.same s t := h p hp
  cases p with
  | random => exact absurd hps hp
  | _ => exact hsame

/-- With no rows, the drawing is that of VF and dirty alone (R207). -/
theorem drawn_no_rows (x y : Reg) (s : State) :
    s.drawn x y 0 = ((s.setFlag false).setDirty true).advance 2 := rfl

section
variable {x : Reg} {s : State}

theorem exec_skp_ok (h : (s.v[x]).toNat < 16) :
    exec (.skp x) s = .next (skipIf s.key[(s.v[x]).toNat] s) :=
  (withKey_ok s.v[x] _ h : execSkp x s = _)

theorem exec_sknp_ok (h : (s.v[x]).toNat < 16) :
    exec (.sknp x) s = .next (skipIf (!s.key[(s.v[x]).toNat]) s) :=
  (withKey_ok s.v[x] _ h : execSknp x s = _)

end

end Sys2Proof.Machine

open Sys2Proof Sys2Proof.Machine in
/-- Settles O24: the bounds check of the sprite's bytes. -/
theorem drawOutOfBoundsFaults : Obligations.DrawOutOfBoundsFaults := by
  intro x y n s hn hout
  have hpast : memSize < s.i.toNat + n.val := by
    unfold memSize
    omega
  exact (withAccess_fault _ hn.ne' hpast : execDrw x y n s = _)

open Sys2Proof Sys2Proof.Machine in
/-- Settles O25: no byte is accessed, so the check passes, and no pixel is drawn. -/
theorem drawOfNoRowsDrawsNothing : Obligations.DrawOfNoRowsDrawsNothing := by
  intro x y s
  obtain ⟨hdirty, hpc, hregs, -⟩ := drawn_rest x y 0 s
  refine ⟨s.drawn x y 0, exec_drw_ok (.inl rfl), drawn_vf x y 0 s, hdirty, hpc, hregs, ?_⟩
  rw [drawn_no_rows]
  exact (((Frame.refl _ s).setRegs (by decide) _).setDirty (by decide) _).setPc _

open Sys2Proof Sys2Proof.Machine in
/-- Settles O27: one write of VX, masked by NN, and one step of the position. -/
theorem randomIsMasked : Obligations.RandomIsMasked := by
  intro x nn s
  have hvx : (s.v.set x (Config.randomByte s.rndPos &&& nn))[x] = Config.randomByte s.rndPos &&& nn := by
    rw [regs_set, if_pos rfl]
  refine ⟨_, rfl, hvx, ?_, rfl, rfl, regsSameBut_setV s x _, ?_⟩
  · refine (congrArg (· &&& ~~~nn) hvx).trans ?_
    rw [BitVec.and_assoc, BitVec.and_not_self]
    exact BitVec.and_zero
  · exact (((Frame.refl _ s).setRegs (by decide) _).setRndPos (by decide) _).setPc _

open Sys2Proof Sys2Proof.Machine in
/-- Settles O28: both are `skipIf` behind the check of the key index. -/
theorem keySkipsTestTheLatch : Obligations.KeySkipsTestTheLatch := by
  intro x s
  refine ⟨fun hkey => ⟨⟨_, exec_skp_ok hkey, ?_, frame_skipIf _ s⟩,
    ⟨_, exec_sknp_ok hkey, ?_, frame_skipIf _ s⟩⟩, fun hout => ?_⟩
  · exact skipIf_pc s _
  · simp only [skipIf_pc, Bool.not_eq_true']
  · have hnot : ¬ (s.v[x]).toNat < 16 := by omega
    exact ⟨(withKey_fault s.v[x] _ hnot : execSkp x s = _),
      (withKey_fault s.v[x] _ hnot : execSknp x s = _)⟩

/-! # O41, O44, O52, O55 to O57 and O60: construction, the fetch and the host (60_exceptions.md)

The invariants of the Step are invariants of every operation, so of every run; and the phase of a started
block is one as well. -/

namespace Sys2Proof.Machine

theorem reset_read (a : Nat) : State.reset.mem.read a = Memory.initial a := rfl

/-- The fetch at a pc from which two bytes do not exist (R111). -/
theorem step_of_fetch_out {s : State} (h : 0xFFE < s.pc.toNat) :
    step s = .fault (.boundsAddr (max s.pc.toNat 0x1000)) :=
  (withAccess_fault _ (by decide) (Nat.add_lt_add_right h 2) : withFetched s _ = _)

/-- No Step is refused: no instruction is (R242). -/
theorem step_not_refused (s : State) (r : Refusal) : step s ≠ .refused r := by
  intro h
  rw [step, withFetched, withAccess] at h
  split at h
  · split at h
    · exact (eachInstructionRaisesItsOwnError _ s).2 r h
    · cases h
  · cases h

/-! ### The operations of the host -/

theorem apply_step_started (b : Block) : (b.apply .step).2.phase = .started := by
  obtain ⟨t, -, hb⟩ | ⟨f, -, hb⟩ | ⟨r, hr, -⟩ := block_step_cases b
  · rw [Block.apply, hb]
  · rw [Block.apply, hb]
  · exact absurd hr (step_not_refused b.state r)

theorem load_of_started {b : Block} (hb : b.phase = .started) (bytes : List Byte) :
    b.apply (.load bytes) = (.refused .loadNotAdmitted, b) := by
  rw [Block.apply, Block.load, hb, if_neg (fun h => by cases h.1)]

theorem apply_keeps_started (op : HostOp) (b : Block) (hb : b.phase = .started) :
    (b.apply op).2.phase = .started := by
  cases op with
  | step => exact apply_step_started b
  | load bytes => rw [load_of_started hb]; exact hb
  | tick | setKey _ _ | queryDirty | queryPixel _ _ | clearDirty => exact hb

/-- Both invariants of the Step (R26, and the canonical form of memory). -/
def Invariants (s : State) : Prop := MemoryCanonical s ∧ ControlBounded s

theorem apply_keeps_invariants (op : HostOp) (b : Block) (hb : Invariants b.state) :
    Invariants (b.apply op).2.state := by
  obtain ⟨hmem, hcontrol⟩ := hb
  cases op with
  | step =>
    obtain ⟨t, ht, hb⟩ | ⟨f, -, hb⟩ | ⟨r, -, hb⟩ := block_step_cases b
    all_goals rw [Block.apply, hb]
    · exact ⟨step_memoryCanonical hmem ht, step_controlBounded hcontrol ht⟩
    · exact ⟨hmem, hcontrol⟩
    · exact ⟨hmem, hcontrol⟩
  | load bytes =>
    obtain ⟨-, -, hfits, hb⟩ | ⟨-, hb⟩ | ⟨-, hb⟩ := block_load_cases bytes b
    all_goals rw [Block.apply, hb]
    · exact ⟨writeBytes_wf bytes _ loadAddr (by unfold memSize loadAddr at *; omega) hmem, hcontrol⟩
    · exact ⟨hmem, hcontrol⟩
    · exact ⟨hmem, hcontrol⟩
  | tick | setKey _ _ | queryDirty | queryPixel _ _ | clearDirty => exact ⟨hmem, hcontrol⟩

/-! ### The end of a run -/

/-- A beginning of the operations that ends at H ends no later than another one that does. -/
theorem endsAt_take_le {h : Addr12} {ops : List HostOp} {m n : Nat} (hm : m ≤ ops.length)
    (hn : n ≤ ops.length) (hendm : EndsAt h (ops.take m)) (hendn : EndsAt h (ops.take n)) : n ≤ m := by
  by_contra hlt
  obtain ⟨-, hhalt, -⟩ := hendm
  obtain ⟨-, -, hfirst⟩ := hendn
  have hmn : m < n := by omega
  refine hfirst m (by rwa [List.length_take_of_le hn]) ?_
  rw [List.length_take_of_le hm, boundaryState_take ops le_rfl] at hhalt
  rwa [boundaryState_take ops hmn.le]

end Sys2Proof.Machine

open Sys2Proof Sys2Proof.Machine in
/-- Settles O41: after construction memory lists nothing, so it reads as the font table and 0. -/
theorem constructionValues : Obligations.ConstructionValues := by
  refine ⟨by decide, rfl, rfl, rfl, by decide, rfl, rfl, by decide, pixel_blank, rfl, fun k => ?_,
    fun a ha => initial_zero ha⟩
  rw [reset_read, initial_font k.isLt, List.getD_eq_getElem]

open Sys2Proof Sys2Proof.Machine in
/-- Settles O44: the bounds check of the fetch. -/
theorem fetchOutOfBoundsFaults : Obligations.FetchOutOfBoundsFaults := by
  refine fun s => ⟨fun hpc => ?_, fun hpc => ?_⟩
  · rw [step_of_fetch_out (by rw [hpc]; decide), hpc]
    rfl
  · rw [step_of_fetch_out (by omega), max_eq_left hpc]

open Sys2Proof Sys2Proof.Machine in
/-- Settles O52: the operation is one write of one entry. -/
theorem keySetWritesOneEntry : Obligations.KeySetWritesOneEntry := by
  refine fun b k p => ⟨rfl, fun j => ?_, rfl, frame_setKeys b.state _⟩
  refine (Vector.getElem_set k.isLt j.isLt).trans ?_
  simp only [Fin.ext_iff, eq_comm, Fin.getElem_fin]

open Sys2Proof Sys2Proof.Machine in
/-- Settles O55: a started block stays so along every run, and there a load has no move. -/
theorem noLoadAfterTheStart : Obligations.NoLoadAfterTheStart := by
  refine ⟨apply_step_started, fun b bytes hok => ?_, fun b ops bytes hb => ?_⟩
  · obtain ⟨-, -, -, hload⟩ | ⟨-, hload⟩ | ⟨-, hload⟩ := block_load_cases bytes b
    all_goals rw [Block.apply, hload] at hok ⊢
    · cases hok
    · cases hok
  · exact load_of_started (run_keeps apply_keeps_started ops b hb) bytes

open Sys2Proof Sys2Proof.Machine in
/-- Settles O56: the error keeps the state, so a further Step is the same Step. -/
theorem failedStepChangesNothing : Obligations.FailedStepChangesNothing := by
  intro b f herror
  obtain ⟨t, -, hb⟩ | ⟨g, hg, hb⟩ | ⟨r, -, hb⟩ := block_step_cases b
  · rw [Block.apply, hb] at herror
    cases herror
  · rw [block_step_of_fault hg] at herror ⊢
    rw [block_step_of_fault (b := { state := b.state, phase := .started }) hg]
    exact ⟨rfl, herror⟩
  · rw [Block.apply, hb] at herror
    cases herror

open Sys2Proof Sys2Proof.Machine in
/-- Settles O57: both invariants hold after construction and are kept by every operation. -/
theorem runsKeepTheInvariants : Obligations.RunsKeepTheInvariants := fun ops =>
  run_keeps (P := fun b => Invariants b.state) apply_keeps_invariants ops Block.construct
    ⟨reset_mem_wf, reset_controlBounded⟩

open Sys2Proof Sys2Proof.Machine in
/-- Settles O60: a second end after the first would pass the halt at a Step boundary before it. -/
theorem runEndsAtItsFirstHalt : Obligations.RunEndsAtItsFirstHalt :=
  fun _ _ _ _ hm hn hendm hendn =>
    le_antisymm (endsAt_take_le hn hm hendn hendm) (endsAt_take_le hm hn hendm hendn)
